-- ==== Sys2Proof/Word.lean ====
section
/-! DEFINITION. The two sizes of bit data the block holds: bytes and 16-bit words (spec 00_scope.md R7, R9). -/

namespace Sys2Proof

/-- A byte: an 8-bit unsigned value (R9). Registers A, X, Y, SP and memory cells. -/
abbrev Byte := BitVec 8

/-- A 16-bit unsigned value (R9): PC and every address. -/
abbrev Word := BitVec 16

end Sys2Proof
end

