-- ==== Sys2Proof/Syntax.lean ====
section
/-! DEFINITION. The instructions: one constructor per row of the opcode table (spec 30_encoding.md R64), with
the operand its addressing mode fetches (R62). -/

namespace Sys2Proof

/-- The six operations of the table (R64): the source's LoadA, LoadX, LoadY, StoreA, StoreX, StoreY. -/
inductive Mnemonic where
  | lda | ldx | ldy | sta | stx | sty
  deriving DecidableEq, Repr

/-- The nine addressing modes (40_addressing_modes.md R85 to R93). -/
inductive Mode where
  | immediate | zeroPage | zeroPageIndexedX | zeroPageIndexedY | absolute
  | absoluteIndexedX | absoluteIndexedY | indexedIndirectX | indirectIndexedY
  deriving DecidableEq, Repr

/-- How many operand bytes follow the opcode (R61). -/
def Mode.operandBytes : Mode → Nat
  | .immediate => 1
  | .zeroPage => 1
  | .zeroPageIndexedX => 1
  | .zeroPageIndexedY => 1
  | .absolute => 2
  | .absoluteIndexedX => 2
  | .absoluteIndexedY => 2
  | .indexedIndirectX => 1
  | .indirectIndexedY => 1

/-- The instruction length in bytes (R60): the opcode byte and the operand bytes. -/
def Mode.length (m : Mode) : Nat := 1 + m.operandBytes

/-- An Instruction Descriptor `(mnemonic, addressing_mode, base_cycles)` (R63). -/
structure Descriptor where
  mnemonic : Mnemonic
  mode : Mode
  baseCycles : Nat
  deriving DecidableEq, Repr

/-- The 31 instructions (R64). An operand byte is kept as a byte; the two operand bytes of format F3
are kept as the little-endian 16-bit address they assemble to (R62). -/
inductive Instr where
  /-- `LDA #$ii`: R121. -/
  | ldaImm (v : Byte)
  /-- `LDA $zz`: R122. -/
  | ldaZp (zz : Byte)
  /-- `LDA $zz,X`: R123. -/
  | ldaZpX (zz : Byte)
  /-- `LDA $hhll`: R124. -/
  | ldaAbs (addr : Word)
  /-- `LDA $hhll,X`: R125. -/
  | ldaAbsX (base : Word)
  /-- `LDA $hhll,Y`: R126. -/
  | ldaAbsY (base : Word)
  /-- `LDA ($zz,X)`: R127. -/
  | ldaIndX (zz : Byte)
  /-- `LDA ($zz),Y`: R128. -/
  | ldaIndY (zz : Byte)
  /-- `LDX #$ii`: R129. -/
  | ldxImm (v : Byte)
  /-- `LDX $zz`: R130. -/
  | ldxZp (zz : Byte)
  /-- `LDX $zz,Y`: R131. -/
  | ldxZpY (zz : Byte)
  /-- `LDX $hhll`: R132. -/
  | ldxAbs (addr : Word)
  /-- `LDX $hhll,Y`: R133. -/
  | ldxAbsY (base : Word)
  /-- `LDY #$ii`: R134. -/
  | ldyImm (v : Byte)
  /-- `LDY $zz`: R135. -/
  | ldyZp (zz : Byte)
  /-- `LDY $zz,X`: R136. -/
  | ldyZpX (zz : Byte)
  /-- `LDY $hhll`: R137. -/
  | ldyAbs (addr : Word)
  /-- `LDY $hhll,X`: R138. -/
  | ldyAbsX (base : Word)
  /-- `STA $zz`: R141. -/
  | staZp (zz : Byte)
  /-- `STA $zz,X`: R142. -/
  | staZpX (zz : Byte)
  /-- `STA $hhll`: R143. -/
  | staAbs (addr : Word)
  /-- `STA $hhll,X`: R144. -/
  | staAbsX (base : Word)
  /-- `STA $hhll,Y`: R145. -/
  | staAbsY (base : Word)
  /-- `STA ($zz,X)`: R146. -/
  | staIndX (zz : Byte)
  /-- `STA ($zz),Y`: R147. -/
  | staIndY (zz : Byte)
  /-- `STX $zz`: R148. -/
  | stxZp (zz : Byte)
  /-- `STX $zz,Y`: R149. -/
  | stxZpY (zz : Byte)
  /-- `STX $hhll`: R150. -/
  | stxAbs (addr : Word)
  /-- `STY $zz`: R151. -/
  | styZp (zz : Byte)
  /-- `STY $zz,X`: R152. -/
  | styZpX (zz : Byte)
  /-- `STY $hhll`: R153. -/
  | styAbs (addr : Word)
  deriving DecidableEq, Repr

/-- The operation an instruction performs (R64). -/
def Instr.mnemonic : Instr → Mnemonic
  | .ldaImm _ => .lda
  | .ldaZp _ => .lda
  | .ldaZpX _ => .lda
  | .ldaAbs _ => .lda
  | .ldaAbsX _ => .lda
  | .ldaAbsY _ => .lda
  | .ldaIndX _ => .lda
  | .ldaIndY _ => .lda
  | .ldxImm _ => .ldx
  | .ldxZp _ => .ldx
  | .ldxZpY _ => .ldx
  | .ldxAbs _ => .ldx
  | .ldxAbsY _ => .ldx
  | .ldyImm _ => .ldy
  | .ldyZp _ => .ldy
  | .ldyZpX _ => .ldy
  | .ldyAbs _ => .ldy
  | .ldyAbsX _ => .ldy
  | .staZp _ => .sta
  | .staZpX _ => .sta
  | .staAbs _ => .sta
  | .staAbsX _ => .sta
  | .staAbsY _ => .sta
  | .staIndX _ => .sta
  | .staIndY _ => .sta
  | .stxZp _ => .stx
  | .stxZpY _ => .stx
  | .stxAbs _ => .stx
  | .styZp _ => .sty
  | .styZpX _ => .sty
  | .styAbs _ => .sty

/-- The addressing mode an instruction uses (R64). -/
def Instr.mode : Instr → Mode
  | .ldaImm _ => .immediate
  | .ldaZp _ => .zeroPage
  | .ldaZpX _ => .zeroPageIndexedX
  | .ldaAbs _ => .absolute
  | .ldaAbsX _ => .absoluteIndexedX
  | .ldaAbsY _ => .absoluteIndexedY
  | .ldaIndX _ => .indexedIndirectX
  | .ldaIndY _ => .indirectIndexedY
  | .ldxImm _ => .immediate
  | .ldxZp _ => .zeroPage
  | .ldxZpY _ => .zeroPageIndexedY
  | .ldxAbs _ => .absolute
  | .ldxAbsY _ => .absoluteIndexedY
  | .ldyImm _ => .immediate
  | .ldyZp _ => .zeroPage
  | .ldyZpX _ => .zeroPageIndexedX
  | .ldyAbs _ => .absolute
  | .ldyAbsX _ => .absoluteIndexedX
  | .staZp _ => .zeroPage
  | .staZpX _ => .zeroPageIndexedX
  | .staAbs _ => .absolute
  | .staAbsX _ => .absoluteIndexedX
  | .staAbsY _ => .absoluteIndexedY
  | .staIndX _ => .indexedIndirectX
  | .staIndY _ => .indirectIndexedY
  | .stxZp _ => .zeroPage
  | .stxZpY _ => .zeroPageIndexedY
  | .stxAbs _ => .absolute
  | .styZp _ => .zeroPage
  | .styZpX _ => .zeroPageIndexedX
  | .styAbs _ => .absolute

/-- The instruction length in bytes (R60). -/
def Instr.length (i : Instr) : Nat := i.mode.length

end Sys2Proof
end

