-- ==== Sys2Proof/Decode.lean ====
section
/-! DEFINITION. Byte order helpers, the opcode table, the decoder and the encoder (spec 30_encoding.md). -/

namespace Sys2Proof

/-- The byte as a 16-bit address, high byte 0x00 (R10). -/
def zext16 (b : Byte) : Word := BitVec.ofNat 16 b.toNat

/-- The 16-bit value with this low and this high byte (R10): `hi * 256 + lo`. -/
def le16 (lo hi : Byte) : Word := BitVec.ofNat 16 (hi.toNat * 256 + lo.toNat)

/-- Bits 7 down to 0 of a word. -/
def loByte (w : Word) : Byte := BitVec.ofNat 8 (w.toNat % 256)

/-- Bits 15 down to 8 of a word. -/
def hiByte (w : Word) : Byte := BitVec.ofNat 8 (w.toNat / 256)

/-- One row of the opcode table (R64). -/
structure OpcodeRow where
  opcode : Byte
  descriptor : Descriptor
  pageCrossExtra : Bool
  deriving DecidableEq, Repr

/-- The 18 load rows of R64. -/
def loadRows : List OpcodeRow :=
  [ { opcode := 0xA9, descriptor := { mnemonic := .lda, mode := .immediate, baseCycles := 2 }, pageCrossExtra := false },
    { opcode := 0xA5, descriptor := { mnemonic := .lda, mode := .zeroPage, baseCycles := 3 }, pageCrossExtra := false },
    { opcode := 0xB5, descriptor := { mnemonic := .lda, mode := .zeroPageIndexedX, baseCycles := 4 }, pageCrossExtra := false },
    { opcode := 0xAD, descriptor := { mnemonic := .lda, mode := .absolute, baseCycles := 4 }, pageCrossExtra := false },
    { opcode := 0xBD, descriptor := { mnemonic := .lda, mode := .absoluteIndexedX, baseCycles := 4 }, pageCrossExtra := true },
    { opcode := 0xB9, descriptor := { mnemonic := .lda, mode := .absoluteIndexedY, baseCycles := 4 }, pageCrossExtra := true },
    { opcode := 0xA1, descriptor := { mnemonic := .lda, mode := .indexedIndirectX, baseCycles := 6 }, pageCrossExtra := false },
    { opcode := 0xB1, descriptor := { mnemonic := .lda, mode := .indirectIndexedY, baseCycles := 5 }, pageCrossExtra := true },
    { opcode := 0xA2, descriptor := { mnemonic := .ldx, mode := .immediate, baseCycles := 2 }, pageCrossExtra := false },
    { opcode := 0xA6, descriptor := { mnemonic := .ldx, mode := .zeroPage, baseCycles := 3 }, pageCrossExtra := false },
    { opcode := 0xB6, descriptor := { mnemonic := .ldx, mode := .zeroPageIndexedY, baseCycles := 4 }, pageCrossExtra := false },
    { opcode := 0xAE, descriptor := { mnemonic := .ldx, mode := .absolute, baseCycles := 4 }, pageCrossExtra := false },
    { opcode := 0xBE, descriptor := { mnemonic := .ldx, mode := .absoluteIndexedY, baseCycles := 4 }, pageCrossExtra := true },
    { opcode := 0xA0, descriptor := { mnemonic := .ldy, mode := .immediate, baseCycles := 2 }, pageCrossExtra := false },
    { opcode := 0xA4, descriptor := { mnemonic := .ldy, mode := .zeroPage, baseCycles := 3 }, pageCrossExtra := false },
    { opcode := 0xB4, descriptor := { mnemonic := .ldy, mode := .zeroPageIndexedX, baseCycles := 4 }, pageCrossExtra := false },
    { opcode := 0xAC, descriptor := { mnemonic := .ldy, mode := .absolute, baseCycles := 4 }, pageCrossExtra := false },
    { opcode := 0xBC, descriptor := { mnemonic := .ldy, mode := .absoluteIndexedX, baseCycles := 4 }, pageCrossExtra := true } ]

/-- The 13 store rows of R64. -/
def storeRows : List OpcodeRow :=
  [ { opcode := 0x85, descriptor := { mnemonic := .sta, mode := .zeroPage, baseCycles := 3 }, pageCrossExtra := false },
    { opcode := 0x95, descriptor := { mnemonic := .sta, mode := .zeroPageIndexedX, baseCycles := 4 }, pageCrossExtra := false },
    { opcode := 0x8D, descriptor := { mnemonic := .sta, mode := .absolute, baseCycles := 4 }, pageCrossExtra := false },
    { opcode := 0x9D, descriptor := { mnemonic := .sta, mode := .absoluteIndexedX, baseCycles := 4 }, pageCrossExtra := true },
    { opcode := 0x99, descriptor := { mnemonic := .sta, mode := .absoluteIndexedY, baseCycles := 4 }, pageCrossExtra := true },
    { opcode := 0x81, descriptor := { mnemonic := .sta, mode := .indexedIndirectX, baseCycles := 6 }, pageCrossExtra := false },
    { opcode := 0x91, descriptor := { mnemonic := .sta, mode := .indirectIndexedY, baseCycles := 5 }, pageCrossExtra := true },
    { opcode := 0x86, descriptor := { mnemonic := .stx, mode := .zeroPage, baseCycles := 3 }, pageCrossExtra := false },
    { opcode := 0x96, descriptor := { mnemonic := .stx, mode := .zeroPageIndexedY, baseCycles := 4 }, pageCrossExtra := false },
    { opcode := 0x8E, descriptor := { mnemonic := .stx, mode := .absolute, baseCycles := 4 }, pageCrossExtra := false },
    { opcode := 0x84, descriptor := { mnemonic := .sty, mode := .zeroPage, baseCycles := 3 }, pageCrossExtra := false },
    { opcode := 0x94, descriptor := { mnemonic := .sty, mode := .zeroPageIndexedX, baseCycles := 4 }, pageCrossExtra := false },
    { opcode := 0x8C, descriptor := { mnemonic := .sty, mode := .absolute, baseCycles := 4 }, pageCrossExtra := false } ]

/-- The opcode table (R64), a constant and not state (10_state.md R32). PRESUMED, by the spec itself: 26 of the 31 byte
values are the 6502's and not the source's (D10; log entry 9). -/
def opcodeTable : List OpcodeRow := loadRows ++ storeRows

/-- The first row for an opcode byte in a list of rows. -/
def findRow (op : Byte) : List OpcodeRow → Option OpcodeRow
  | [] => none
  | r :: rs => if r.opcode = op then some r else findRow op rs

/-- Table lookup by the opcode byte alone (R63). -/
def opcodeRow (op : Byte) : Option OpcodeRow := findRow op opcodeTable

/-- What an opcode byte asks for: its instruction once the operand bytes are known (R60). -/
inductive Shape where
  /-- Format F2: one operand byte. -/
  | oneByte (make : Byte → Instr)
  /-- Format F3: two operand bytes, low byte first. -/
  | twoByte (make : Word → Instr)

/-- The instruction from the bytes at the two addresses after the opcode; F2 uses only the first. -/
def assembleOperand (sh : Shape) (b1 b2 : Byte) : Instr :=
  match sh with
  | .oneByte make => make b1
  | .twoByte make => make (le16 b1 b2)

/-- Decoding of the opcode byte (R63, R64). Every byte outside the 31 is unrecognized (R67). -/
def decodeOpcode (op : Byte) : Option Shape :=
  match op with
  | 0xA9#8 => some (.oneByte .ldaImm)
  | 0xA5#8 => some (.oneByte .ldaZp)
  | 0xB5#8 => some (.oneByte .ldaZpX)
  | 0xAD#8 => some (.twoByte .ldaAbs)
  | 0xBD#8 => some (.twoByte .ldaAbsX)
  | 0xB9#8 => some (.twoByte .ldaAbsY)
  | 0xA1#8 => some (.oneByte .ldaIndX)
  | 0xB1#8 => some (.oneByte .ldaIndY)
  | 0xA2#8 => some (.oneByte .ldxImm)
  | 0xA6#8 => some (.oneByte .ldxZp)
  | 0xB6#8 => some (.oneByte .ldxZpY)
  | 0xAE#8 => some (.twoByte .ldxAbs)
  | 0xBE#8 => some (.twoByte .ldxAbsY)
  | 0xA0#8 => some (.oneByte .ldyImm)
  | 0xA4#8 => some (.oneByte .ldyZp)
  | 0xB4#8 => some (.oneByte .ldyZpX)
  | 0xAC#8 => some (.twoByte .ldyAbs)
  | 0xBC#8 => some (.twoByte .ldyAbsX)
  | 0x85#8 => some (.oneByte .staZp)
  | 0x95#8 => some (.oneByte .staZpX)
  | 0x8D#8 => some (.twoByte .staAbs)
  | 0x9D#8 => some (.twoByte .staAbsX)
  | 0x99#8 => some (.twoByte .staAbsY)
  | 0x81#8 => some (.oneByte .staIndX)
  | 0x91#8 => some (.oneByte .staIndY)
  | 0x86#8 => some (.oneByte .stxZp)
  | 0x96#8 => some (.oneByte .stxZpY)
  | 0x8E#8 => some (.twoByte .stxAbs)
  | 0x84#8 => some (.oneByte .styZp)
  | 0x94#8 => some (.oneByte .styZpX)
  | 0x8C#8 => some (.twoByte .styAbs)
  | _ => none

/-- Why a byte sequence holds no instruction at its start. -/
inductive DecodeError where
  /-- The first byte is one of the 225 unrecognized opcode bytes (R67). -/
  | unrecognizedOpcode (op : Byte)
  /-- The sequence ends before the instruction does. -/
  | outOfBytes
  deriving DecidableEq, Repr

/-- The instruction at the start of a byte sequence and the bytes after it (R60, R62). No operand byte is
refused (R68). -/
def decode : List Byte → Except DecodeError (Instr × List Byte)
  | [] => .error .outOfBytes
  | op :: rest =>
    match decodeOpcode op with
    | none => .error (.unrecognizedOpcode op)
    | some (.oneByte make) =>
      match rest with
      | o :: rest' => .ok (make o, rest')
      | [] => .error .outOfBytes
    | some (.twoByte make) =>
      match rest with
      | l :: h :: rest' => .ok (make (le16 l h), rest')
      | _ => .error .outOfBytes

/-- The bytes of an instruction in fetch order (R60, R64). -/
def encode : Instr → List Byte
  | .ldaImm v => [0xA9, v]
  | .ldaZp zz => [0xA5, zz]
  | .ldaZpX zz => [0xB5, zz]
  | .ldaAbs addr => [0xAD, loByte addr, hiByte addr]
  | .ldaAbsX base => [0xBD, loByte base, hiByte base]
  | .ldaAbsY base => [0xB9, loByte base, hiByte base]
  | .ldaIndX zz => [0xA1, zz]
  | .ldaIndY zz => [0xB1, zz]
  | .ldxImm v => [0xA2, v]
  | .ldxZp zz => [0xA6, zz]
  | .ldxZpY zz => [0xB6, zz]
  | .ldxAbs addr => [0xAE, loByte addr, hiByte addr]
  | .ldxAbsY base => [0xBE, loByte base, hiByte base]
  | .ldyImm v => [0xA0, v]
  | .ldyZp zz => [0xA4, zz]
  | .ldyZpX zz => [0xB4, zz]
  | .ldyAbs addr => [0xAC, loByte addr, hiByte addr]
  | .ldyAbsX base => [0xBC, loByte base, hiByte base]
  | .staZp zz => [0x85, zz]
  | .staZpX zz => [0x95, zz]
  | .staAbs addr => [0x8D, loByte addr, hiByte addr]
  | .staAbsX base => [0x9D, loByte base, hiByte base]
  | .staAbsY base => [0x99, loByte base, hiByte base]
  | .staIndX zz => [0x81, zz]
  | .staIndY zz => [0x91, zz]
  | .stxZp zz => [0x86, zz]
  | .stxZpY zz => [0x96, zz]
  | .stxAbs addr => [0x8E, loByte addr, hiByte addr]
  | .styZp zz => [0x84, zz]
  | .styZpX zz => [0x94, zz]
  | .styAbs addr => [0x8C, loByte addr, hiByte addr]

/-- The bytes of a word whose bits are numbered from the first byte's bit 0, bits from `nbits` up
taken as 0, as many as the longest instruction has. -/
def tableWordBytes (nbits w : Nat) : List Byte :=
  let bits := w % 2 ^ nbits
  [BitVec.ofNat 8 bits, BitVec.ofNat 8 (bits / 256), BitVec.ofNat 8 (bits / 65536)]

/-- The instruction the decoder reads from a table word (see `tableWordBytes`). -/
def decodeTableWord (nbits w : Nat) : Option Instr :=
  match decode (tableWordBytes nbits w) with
  | .ok (i, _) => some i
  | .error _ => none

end Sys2Proof
end

