-- ==== Sys2Proof/Config.lean ====
section
/-! DEFINITION. The implementation parameters of spec 00_scope.md R8 and what an unlisted memory cell reads as. -/

namespace Sys2Proof.Config

/-- `EA_CARRY_OUT` (R8, R82): what becomes of a carry out of bit 15 of an indexed address. -/
inductive EaCarryOut where
  /-- The carry is dropped (the default). -/
  | wrap
  /-- The model refuses with reason EaCarryOut. -/
  | fault
  deriving DecidableEq, Repr

/-- `ZP_POINTER_WRAP` (R8, R81): where the high byte of a zero-page pointer at 0xFF is read. -/
inductive ZpPointerWrap where
  /-- At 0x0000 (the default). -/
  | wrap
  /-- At 0x0100. -/
  | linear
  /-- The model refuses with reason ZpPointerAtFF. -/
  | fault
  deriving DecidableEq, Repr

/-- The named parameters a model takes as arguments (R8). The other two of R8, MEM_INIT and
PRE_RESET_STATE, are arguments of `Machine.createMachine`. -/
structure Params where
  eaCarryOut : EaCarryOut
  zpPointerWrap : ZpPointerWrap
  deriving DecidableEq, Repr

/-- The defaults the spec chooses (R8). -/
def defaultParams : Params := { eaCarryOut := .wrap, zpPointerWrap := .wrap }

/-- What a memory address that is not listed reads as. DESIGN CHOICE, unsafe for claims about the
empty memory of `State.reset` (log entry 1): the spec leaves the contents at creation open (R43), and
"all zero" is one of the two readings it names. Any other contents are a list of cells. -/
def unlistedByte : Byte := 0x00

end Sys2Proof.Config
end

