-- ==== Sys2Proof/Machine/State.lean ====
section
/-! DEFINITION. The state of one machine instance (spec 10_state.md R34), its reset value, and the reasons a step
can stop. -/

namespace Sys2Proof.Machine

/-- `HALT`, the halt state (R29). -/
inductive Halt where
  /-- The engine runs instructions. -/
  | running
  /-- An UnrecognizedOpcode was raised by this opcode byte, fetched from this address (R162). -/
  | halted (op : Byte) (addr : Word)
  deriving DecidableEq, Repr

/-- `MEM` (20_memory.md R40) as the listed cells; an unlisted address holds `Config.unlistedByte`. -/
abbrev Memory := List Host.Cell

/-- The canonical form: addresses strictly rising and inside the 64 KiB space, and no cell listed that holds
what an unlisted one reads as. -/
abbrev Memory.wf (m : Memory) : Prop :=
  m.Pairwise (fun c d => c.1 < d.1) ∧ ∀ c ∈ m, c.1 < 65536 ∧ c.2 ≠ Config.unlistedByte

/-- The state of one machine instance (R34), and the model's parameters (00_scope.md R8). -/
structure State where
  /-- Accumulator A (R20). -/
  a : Byte
  /-- Index register X (R21). -/
  x : Byte
  /-- Index register Y (R22). -/
  y : Byte
  /-- Stack pointer SP (R23). -/
  sp : Byte
  /-- Program counter PC, the address of the next byte to fetch (R25). -/
  pc : Word
  /-- Flag C, the source's `carry` (R27). -/
  flagC : Bool
  /-- Flag Z, `zero` (R27). -/
  flagZ : Bool
  /-- Flag I, `interrupt_disable` (R27). -/
  flagI : Bool
  /-- Flag D, `decimal` (R27). -/
  flagD : Bool
  /-- Flag B, `break_` (R27). -/
  flagB : Bool
  /-- Flag V, `overflow` (R27). -/
  flagV : Bool
  /-- Flag N, `negative` (R27). -/
  flagN : Bool
  /-- `CYC`, the cycles consumed since the machine was created, unbounded (R28). -/
  cyc : Nat
  /-- `HALT` (R29). -/
  halt : Halt
  /-- `MEM` (20_memory.md R40). -/
  mem : Memory
  /-- The model's own field: the parameters of 00_scope.md R8, which nothing changes. DESIGN CHOICE, safe: every
  statement about all states is about every setting (log entry 2). -/
  params : Config.Params
  deriving DecidableEq, Repr

/-- The faults of the block that leave no next state: none. UnrecognizedOpcode, its only exception (R160), ends in
the next state of R162 (DEDUCED, log entry 3), and memory accesses never fail (20_memory.md R41, R42). Safe: there is
nothing to raise. -/
inductive Fault where
  deriving DecidableEq, Repr

/-- The reasons the model refuses a step. R96 calls these the model's refusals, not faults of the block (DEDUCED, safe,
log entry 10). -/
inductive Refusal where
  /-- Raised by an arm of `exec` whose instruction has no meaning yet; no arm is left. Safe. -/
  | notModelled (mnemonic : String)
  /-- Raised by the modes AbsoluteIndexedX, AbsoluteIndexedY and IndirectIndexedY when the sum exceeds 0xFFFF and
  `EA_CARRY_OUT = fault` (R82, R96). Safe: the model stops where the spec settles no address. -/
  | eaCarryOut
  /-- Raised by the modes IndexedIndirectX and IndirectIndexedY when the pointer is at 0xFF and
  `ZP_POINTER_WRAP = fault` (R81, R96). Safe: the model stops where the spec settles no address. -/
  | zpPointerAtFF
  deriving DecidableEq, Repr

/-- The machine after creation and one `reset()` (70_reset_and_hazards.md R180, 10_state.md R34): CYC is its value
at creation (R28; DEDUCED, log entry 5), and the parameters are the defaults (R8). Memory lists nothing: the contents at creation
are the launch input MEM_INIT (R43), here the all-zero one (DESIGN CHOICE, unsafe for claims about
this one state, log entry 1). -/
def State.reset : State :=
  { a := 0x00
    x := 0x00
    y := 0x00
    sp := 0x00
    pc := 0xFFFC
    flagC := false
    flagZ := false
    flagI := false
    flagD := false
    flagB := false
    flagV := false
    flagN := false
    cyc := 0
    halt := .running
    mem := []
    params := Config.defaultParams }

end Sys2Proof.Machine
end

