-- ==== Sys2Proof/Machine/Ops.lean ====
section
/-! DEFINITION. The shared operations: memory (spec 20_memory.md), registers, PC and cycle counter, taking
UnrecognizedOpcode, and `reset()`, the only way out of it. -/

namespace Sys2Proof.Machine

/-- The byte at an address (R41): the listed one, else `Config.unlistedByte`. -/
def Memory.read : Memory → Word → Byte
  | [], _ => Config.unlistedByte
  | c :: m, addr => if c.1 = addr.toNat then c.2 else Memory.read m addr

/-- The memory with an address no longer listed. -/
def Memory.erase (m : Memory) (addr : Word) : Memory := m.filter (fun c => c.1 ≠ addr.toNat)

/-- The memory with a cell listed in address order, in place of one already listed at that address. -/
def Memory.insert : Memory → Word → Byte → Memory
  | [], addr, v => [(addr.toNat, v)]
  | c :: m, addr, v =>
    if c.1 < addr.toNat then c :: Memory.insert m addr v
    else if c.1 = addr.toNat then (addr.toNat, v) :: m
    else (addr.toNat, v) :: c :: m

/-- The memory after a one-byte write (R42), in canonical form. -/
def Memory.write (m : Memory) (addr : Word) (v : Byte) : Memory :=
  if v = Config.unlistedByte then m.erase addr else m.insert addr v

/-- The memory after writing consecutive bytes from an address up; addresses wrap at 0xFFFF as PC does (R25). -/
def Memory.writeBytes (m : Memory) (addr : Word) : List Byte → Memory
  | [] => m
  | b :: bs => Memory.writeBytes (m.write addr b) (addr + 1) bs

/-- The bytes at `n` consecutive addresses, wrapping at 0xFFFF as fetch does (R25, R60). -/
def Memory.bytesFrom (m : Memory) (addr : Word) : Nat → List Byte
  | 0 => []
  | n + 1 => m.read addr :: Memory.bytesFrom m (addr + 1) n

/-- The cells below an address of a memory given as a function. -/
def Memory.ofFunBelow (f : Word → Byte) : Nat → Memory
  | 0 => []
  | n + 1 =>
    Memory.ofFunBelow f n ++
      (if f (BitVec.ofNat 16 n) = Config.unlistedByte then [] else [(n, f (BitVec.ofNat 16 n))])

/-- The memory whose byte at each address is the function's: how MEM_INIT, "any function from 16-bit address to
byte" (00_scope.md R8, R43), stands in the state. -/
def Memory.ofFun (f : Word → Byte) : Memory := Memory.ofFunBelow f 65536

/-- `MemRead(addr, 1)` (R41). -/
def State.memRead (s : State) (addr : Word) : Byte := s.mem.read addr

/-- `MemWrite(addr, 1, v)` (R42). -/
def State.memWrite (s : State) (addr : Word) (v : Byte) : State := { s with mem := s.mem.write addr v }

/-- The three registers a load writes and a store reads (10_state.md R20 to R22). -/
inductive Reg where
  | a | x | y
  deriving DecidableEq, Repr

/-- The value of a register. -/
def State.getReg (s : State) : Reg → Byte
  | .a => s.a
  | .x => s.x
  | .y => s.y

/-- The state with a register written; the others are independent (R24). -/
def State.setReg (s : State) (r : Reg) (v : Byte) : State :=
  match r with
  | .a => { s with a := v }
  | .x => { s with x := v }
  | .y => { s with y := v }

/-- PC after `n` byte fetches, modulo 65536 (R25). -/
def State.advancePc (s : State) (n : Nat) : State := { s with pc := s.pc + BitVec.ofNat 16 n }

/-- The counter's side of `Charge(n)` (41_execution_engine.md R108); the budget's side is `executeLoop`. -/
def State.charge (s : State) (n : Nat) : State := { s with cyc := s.cyc + n }

/-- Taking UnrecognizedOpcode for the opcode byte `op` at PC (60_exceptions.md R162). The opcode fetch has advanced PC
and charged one cycle (R103); then B is set and HALT records the byte and its address. Nothing else is saved (R166). -/
def State.takeUnrecognizedOpcode (s : State) (op : Byte) : State :=
  { (s.advancePc 1).charge 1 with flagB := true, halt := .halted op s.pc }

/-- `reset()` (70_reset_and_hazards.md R180), the only way out of `Halted` (60_exceptions.md R167). CYC, MEM and the
parameters stay. -/
def State.resetOp (s : State) : State :=
  { State.reset with cyc := s.cyc, mem := s.mem, params := s.params }

end Sys2Proof.Machine
end

