-- ==== Sys2Proof/Machine/Flags.lean ====
section
/-! DEFINITION. The flag computation of the block (spec 42_load.md R120): Z and N from a loaded byte. -/

namespace Sys2Proof.Machine

/-- Z from a byte: 1 iff it is 0x00 (R120). -/
def zeroOf (v : Byte) : Bool := v == 0x00

/-- N from a byte: its bit 7 (R120). -/
def negativeOf (v : Byte) : Bool := v.getLsbD 7

/-- `SetZN(v)` (00_scope.md R12, R120). C, I, D, B and V are not written. -/
def setZN (v : Byte) (s : State) : State := { s with flagZ := zeroOf v, flagN := negativeOf v }

end Sys2Proof.Machine
end

