-- ==== Sys2Proof/Machine/Operands.lean ====
section
/-! DEFINITION. The addressing resolver for the eight modes that reach memory (spec 40_addressing_modes.md). Mode
Immediate (R85) has no address; `loadImmediate` covers it. -/

namespace Sys2Proof.Machine

/-- A memory addressing mode with its operand as fetched (30_encoding.md R62). -/
inductive AddrMode where
  | zeroPage (zz : Byte)
  | zeroPageX (zz : Byte)
  | zeroPageY (zz : Byte)
  | absolute (addr : Word)
  | absoluteX (base : Word)
  | absoluteY (base : Word)
  | indexedIndirectX (zz : Byte)
  | indirectIndexedY (zz : Byte)
  deriving DecidableEq, Repr

/-- The length in bytes of an instruction of this mode (R60). -/
def AddrMode.length : AddrMode → Nat
  | .zeroPage _ => 2
  | .zeroPageX _ => 2
  | .zeroPageY _ => 2
  | .absolute _ => 3
  | .absoluteX _ => 3
  | .absoluteY _ => 3
  | .indexedIndirectX _ => 2
  | .indirectIndexedY _ => 2

/-- The memory addressing mode of an instruction; none for mode Immediate. -/
def instrAddrMode : Instr → Option AddrMode
  | .ldaImm _ => none
  | .ldaZp zz => some (.zeroPage zz)
  | .ldaZpX zz => some (.zeroPageX zz)
  | .ldaAbs addr => some (.absolute addr)
  | .ldaAbsX base => some (.absoluteX base)
  | .ldaAbsY base => some (.absoluteY base)
  | .ldaIndX zz => some (.indexedIndirectX zz)
  | .ldaIndY zz => some (.indirectIndexedY zz)
  | .ldxImm _ => none
  | .ldxZp zz => some (.zeroPage zz)
  | .ldxZpY zz => some (.zeroPageY zz)
  | .ldxAbs addr => some (.absolute addr)
  | .ldxAbsY base => some (.absoluteY base)
  | .ldyImm _ => none
  | .ldyZp zz => some (.zeroPage zz)
  | .ldyZpX zz => some (.zeroPageX zz)
  | .ldyAbs addr => some (.absolute addr)
  | .ldyAbsX base => some (.absoluteX base)
  | .staZp zz => some (.zeroPage zz)
  | .staZpX zz => some (.zeroPageX zz)
  | .staAbs addr => some (.absolute addr)
  | .staAbsX base => some (.absoluteX base)
  | .staAbsY base => some (.absoluteY base)
  | .staIndX zz => some (.indexedIndirectX zz)
  | .staIndY zz => some (.indirectIndexedY zz)
  | .stxZp zz => some (.zeroPage zz)
  | .stxZpY zz => some (.zeroPageY zz)
  | .stxAbs addr => some (.absolute addr)
  | .styZp zz => some (.zeroPage zz)
  | .styZpX zz => some (.zeroPageX zz)
  | .styAbs addr => some (.absolute addr)

/-- What the resolver returns: the effective address and the cycles beyond the opcode fetch (R80). -/
structure EffAddr where
  addr : Word
  extra : Nat
  deriving DecidableEq, Repr

/-- `ZpNext(p)`: the address of a zero-page pointer's high byte (R81). -/
def zpNext (setting : Config.ZpPointerWrap) (p : Byte) : Except Refusal Word :=
  match setting with
  | .wrap => .ok (zext16 (p + 1))
  | .linear => .ok (zext16 p + 1)
  | .fault => if p.toNat < 0xFF then .ok (zext16 p + 1) else .error .zpPointerAtFF

/-- `Carry16(s)`: an indexed sum reduced to a 16-bit address (R82). -/
def carry16 (setting : Config.EaCarryOut) (sum : Nat) : Except Refusal Word :=
  match setting with
  | .wrap => .ok (BitVec.ofNat 16 sum)
  | .fault => if sum ≤ 0xFFFF then .ok (BitVec.ofNat 16 sum) else .error .eaCarryOut

/-- `PageCross(base, s)`: 1 when the sum's page differs from the base's, else 0 (R83). -/
def pageCross (base : Word) (sum : Nat) : Nat :=
  if base.toNat &&& 0xFF00 ≠ sum &&& 0xFF00 then 1 else 0

/-- Index addition inside page 0x00: the sum modulo 256 (R87, R88, R92). -/
def zpIndexed (o index : Byte) : Byte := o + index

/-- The 16-bit pointer whose low byte is at a zero-page address (R92, R93, 20_memory.md R45). -/
def pointerAt (p : Byte) (s : State) : Except Refusal Word :=
  match zpNext s.params.zpPointerWrap p with
  | .error reason => .error reason
  | .ok next => .ok (le16 (s.memRead (zext16 p)) (s.memRead next))

/-- A base plus an index register, with the mode's cycles and the page-crossing cycle (R90, R91, R93). -/
def indexedFrom (base : Word) (index : Byte) (cycles : Nat) (s : State) : Except Refusal EffAddr :=
  match carry16 s.params.eaCarryOut (base.toNat + index.toNat) with
  | .error reason => .error reason
  | .ok addr => .ok { addr := addr, extra := cycles + pageCross base (base.toNat + index.toNat) }

/-- Mode IndexedIndirectX: the pointer at operand plus X (R92). -/
def indexedIndirect (zz : Byte) (s : State) : Except Refusal EffAddr :=
  match pointerAt (zpIndexed zz s.x) s with
  | .error reason => .error reason
  | .ok addr => .ok { addr := addr, extra := 5 }

/-- Mode IndirectIndexedY: the pointer at the operand, plus Y (R93). -/
def indirectIndexed (zz : Byte) (s : State) : Except Refusal EffAddr :=
  match pointerAt zz s with
  | .error reason => .error reason
  | .ok base => indexedFrom base s.y 4 s

/-- The resolver (R80): each mode's effective address and extra cycles (R86 to R93). The index registers and the
pointer bytes are those the instruction began with (R95). -/
def effectiveAddress (m : AddrMode) (s : State) : Except Refusal EffAddr :=
  match m with
  | .zeroPage zz => .ok { addr := zext16 zz, extra := 2 }
  | .zeroPageX zz => .ok { addr := zext16 (zpIndexed zz s.x), extra := 3 }
  | .zeroPageY zz => .ok { addr := zext16 (zpIndexed zz s.y), extra := 3 }
  | .absolute addr => .ok { addr := addr, extra := 3 }
  | .absoluteX base => indexedFrom base s.x 3 s
  | .absoluteY base => indexedFrom base s.y 3 s
  | .indexedIndirectX zz => indexedIndirect zz s
  | .indirectIndexedY zz => indirectIndexed zz s

end Sys2Proof.Machine
end

