-- ==== Sys2Proof/Machine/Load.lean ====
section
/-! DEFINITION. The load family LDA, LDX, LDY (spec 42_load.md). -/

namespace Sys2Proof.Machine

/-- The state after a load of `v` into `r` by an instruction of `len` bytes whose mode charges `extra` (R120):
PC past the instruction, `1 + extra` cycles, the register, Z and N. The cycles are charged at once, as R113 allows
(DEDUCED, safe, log entry 4). -/
def finishLoad (r : Reg) (v : Byte) (len extra : Nat) (s : State) : State :=
  setZN v (((s.advancePc len).charge (1 + extra)).setReg r v)

/-- A load in mode Immediate: the operand byte is the value, one extra cycle (R85, R120). -/
def loadImmediate (r : Reg) (v : Byte) (s : State) : Host.Outcome State Fault Refusal :=
  .next (finishLoad r v 2 1 s)

/-- A load from memory: the value is the byte at the effective address (R106, R120). -/
def load (r : Reg) (m : AddrMode) (s : State) : Host.Outcome State Fault Refusal :=
  match effectiveAddress m s with
  | .error reason => .refused reason
  | .ok e => .next (finishLoad r (s.memRead e.addr) m.length e.extra s)

/-- `LDA #$ii`: R121, address by R85. -/
def execLdaImm (v : Byte) (s : State) : Host.Outcome State Fault Refusal :=
  loadImmediate .a v s

/-- `LDA $zz`: R122, address by R86. -/
def execLdaZp (zz : Byte) (s : State) : Host.Outcome State Fault Refusal :=
  load .a (.zeroPage zz) s

/-- `LDA $zz,X`: R123, address by R87. -/
def execLdaZpX (zz : Byte) (s : State) : Host.Outcome State Fault Refusal :=
  load .a (.zeroPageX zz) s

/-- `LDA $hhll`: R124, address by R89. -/
def execLdaAbs (addr : Word) (s : State) : Host.Outcome State Fault Refusal :=
  load .a (.absolute addr) s

/-- `LDA $hhll,X`: R125, address by R90. -/
def execLdaAbsX (base : Word) (s : State) : Host.Outcome State Fault Refusal :=
  load .a (.absoluteX base) s

/-- `LDA $hhll,Y`: R126, address by R91. -/
def execLdaAbsY (base : Word) (s : State) : Host.Outcome State Fault Refusal :=
  load .a (.absoluteY base) s

/-- `LDA ($zz,X)`: R127, address by R92. -/
def execLdaIndX (zz : Byte) (s : State) : Host.Outcome State Fault Refusal :=
  load .a (.indexedIndirectX zz) s

/-- `LDA ($zz),Y`: R128, address by R93. -/
def execLdaIndY (zz : Byte) (s : State) : Host.Outcome State Fault Refusal :=
  load .a (.indirectIndexedY zz) s

/-- `LDX #$ii`: R129, address by R85. -/
def execLdxImm (v : Byte) (s : State) : Host.Outcome State Fault Refusal :=
  loadImmediate .x v s

/-- `LDX $zz`: R130, address by R86. -/
def execLdxZp (zz : Byte) (s : State) : Host.Outcome State Fault Refusal :=
  load .x (.zeroPage zz) s

/-- `LDX $zz,Y`: R131, address by R88. -/
def execLdxZpY (zz : Byte) (s : State) : Host.Outcome State Fault Refusal :=
  load .x (.zeroPageY zz) s

/-- `LDX $hhll`: R132, address by R89. -/
def execLdxAbs (addr : Word) (s : State) : Host.Outcome State Fault Refusal :=
  load .x (.absolute addr) s

/-- `LDX $hhll,Y`: R133, address by R91. -/
def execLdxAbsY (base : Word) (s : State) : Host.Outcome State Fault Refusal :=
  load .x (.absoluteY base) s

/-- `LDY #$ii`: R134, address by R85. -/
def execLdyImm (v : Byte) (s : State) : Host.Outcome State Fault Refusal :=
  loadImmediate .y v s

/-- `LDY $zz`: R135, address by R86. -/
def execLdyZp (zz : Byte) (s : State) : Host.Outcome State Fault Refusal :=
  load .y (.zeroPage zz) s

/-- `LDY $zz,X`: R136, address by R87. -/
def execLdyZpX (zz : Byte) (s : State) : Host.Outcome State Fault Refusal :=
  load .y (.zeroPageX zz) s

/-- `LDY $hhll`: R137, address by R89. -/
def execLdyAbs (addr : Word) (s : State) : Host.Outcome State Fault Refusal :=
  load .y (.absolute addr) s

/-- `LDY $hhll,X`: R138, address by R90. -/
def execLdyAbsX (base : Word) (s : State) : Host.Outcome State Fault Refusal :=
  load .y (.absoluteX base) s

end Sys2Proof.Machine
end

