-- ==== Sys2Proof/Machine/Store.lean ====
section
/-! DEFINITION. The store family STA, STX, STY (spec 43_store.md). -/

namespace Sys2Proof.Machine

/-- A store of `r` at the effective address (R106, R140): PC past the instruction, `1 + extra` cycles, one byte
written, no flag. -/
def store (r : Reg) (m : AddrMode) (s : State) : Host.Outcome State Fault Refusal :=
  match effectiveAddress m s with
  | .error reason => .refused reason
  | .ok e => .next (((s.advancePc m.length).charge (1 + e.extra)).memWrite e.addr (s.getReg r))

/-- `STA $zz`: R141, address by R86. -/
def execStaZp (zz : Byte) (s : State) : Host.Outcome State Fault Refusal :=
  store .a (.zeroPage zz) s

/-- `STA $zz,X`: R142, address by R87. -/
def execStaZpX (zz : Byte) (s : State) : Host.Outcome State Fault Refusal :=
  store .a (.zeroPageX zz) s

/-- `STA $hhll`: R143, address by R89. -/
def execStaAbs (addr : Word) (s : State) : Host.Outcome State Fault Refusal :=
  store .a (.absolute addr) s

/-- `STA $hhll,X`: R144, address by R90. -/
def execStaAbsX (base : Word) (s : State) : Host.Outcome State Fault Refusal :=
  store .a (.absoluteX base) s

/-- `STA $hhll,Y`: R145, address by R91. -/
def execStaAbsY (base : Word) (s : State) : Host.Outcome State Fault Refusal :=
  store .a (.absoluteY base) s

/-- `STA ($zz,X)`: R146, address by R92. -/
def execStaIndX (zz : Byte) (s : State) : Host.Outcome State Fault Refusal :=
  store .a (.indexedIndirectX zz) s

/-- `STA ($zz),Y`: R147, address by R93. -/
def execStaIndY (zz : Byte) (s : State) : Host.Outcome State Fault Refusal :=
  store .a (.indirectIndexedY zz) s

/-- `STX $zz`: R148, address by R86. -/
def execStxZp (zz : Byte) (s : State) : Host.Outcome State Fault Refusal :=
  store .x (.zeroPage zz) s

/-- `STX $zz,Y`: R149, address by R88. -/
def execStxZpY (zz : Byte) (s : State) : Host.Outcome State Fault Refusal :=
  store .x (.zeroPageY zz) s

/-- `STX $hhll`: R150, address by R89. -/
def execStxAbs (addr : Word) (s : State) : Host.Outcome State Fault Refusal :=
  store .x (.absolute addr) s

/-- `STY $zz`: R151, address by R86. -/
def execStyZp (zz : Byte) (s : State) : Host.Outcome State Fault Refusal :=
  store .y (.zeroPage zz) s

/-- `STY $zz,X`: R152, address by R87. -/
def execStyZpX (zz : Byte) (s : State) : Host.Outcome State Fault Refusal :=
  store .y (.zeroPageX zz) s

/-- `STY $hhll`: R153, address by R89. -/
def execStyAbs (addr : Word) (s : State) : Host.Outcome State Fault Refusal :=
  store .y (.absolute addr) s

end Sys2Proof.Machine
end

