-- ==== Sys2Proof/Machine/Dispatch.lean ====
section
/-! DEFINITION. One arm per instruction: which meaning each instruction has. -/

namespace Sys2Proof.Machine

/-- The effect of one recognized instruction whose opcode byte is at PC (spec 41_execution_engine.md R103 to R106). -/
def exec (i : Instr) (s : State) : Host.Outcome State Fault Refusal :=
  match i with
  | .ldaImm v => Sys2Proof.Machine.execLdaImm v s
  | .ldaZp zz => Sys2Proof.Machine.execLdaZp zz s
  | .ldaZpX zz => Sys2Proof.Machine.execLdaZpX zz s
  | .ldaAbs addr => Sys2Proof.Machine.execLdaAbs addr s
  | .ldaAbsX base => Sys2Proof.Machine.execLdaAbsX base s
  | .ldaAbsY base => Sys2Proof.Machine.execLdaAbsY base s
  | .ldaIndX zz => Sys2Proof.Machine.execLdaIndX zz s
  | .ldaIndY zz => Sys2Proof.Machine.execLdaIndY zz s
  | .ldxImm v => Sys2Proof.Machine.execLdxImm v s
  | .ldxZp zz => Sys2Proof.Machine.execLdxZp zz s
  | .ldxZpY zz => Sys2Proof.Machine.execLdxZpY zz s
  | .ldxAbs addr => Sys2Proof.Machine.execLdxAbs addr s
  | .ldxAbsY base => Sys2Proof.Machine.execLdxAbsY base s
  | .ldyImm v => Sys2Proof.Machine.execLdyImm v s
  | .ldyZp zz => Sys2Proof.Machine.execLdyZp zz s
  | .ldyZpX zz => Sys2Proof.Machine.execLdyZpX zz s
  | .ldyAbs addr => Sys2Proof.Machine.execLdyAbs addr s
  | .ldyAbsX base => Sys2Proof.Machine.execLdyAbsX base s
  | .staZp zz => Sys2Proof.Machine.execStaZp zz s
  | .staZpX zz => Sys2Proof.Machine.execStaZpX zz s
  | .staAbs addr => Sys2Proof.Machine.execStaAbs addr s
  | .staAbsX base => Sys2Proof.Machine.execStaAbsX base s
  | .staAbsY base => Sys2Proof.Machine.execStaAbsY base s
  | .staIndX zz => Sys2Proof.Machine.execStaIndX zz s
  | .staIndY zz => Sys2Proof.Machine.execStaIndY zz s
  | .stxZp zz => Sys2Proof.Machine.execStxZp zz s
  | .stxZpY zz => Sys2Proof.Machine.execStxZpY zz s
  | .stxAbs addr => Sys2Proof.Machine.execStxAbs addr s
  | .styZp zz => Sys2Proof.Machine.execStyZp zz s
  | .styZpX zz => Sys2Proof.Machine.execStyZpX zz s
  | .styAbs addr => Sys2Proof.Machine.execStyAbs addr s

end Sys2Proof.Machine
end

