-- ==== Sys2Proof/Machine/Fetch.lean ====
section
/-! DEFINITION. Fetching the instruction at PC (spec 41_execution_engine.md R103, R104; 30_encoding.md R60). -/

namespace Sys2Proof.Machine

/-- The opcode byte at PC (R103). -/
def opcodeAtPc (s : State) : Byte := s.memRead s.pc

/-- The instruction at PC, or none when its opcode byte is unrecognized (R104). The operand bytes are at the
addresses after the opcode, modulo 65536 (R25, R60), and are used only by the formats that have them. -/
def fetchInstr (s : State) : Option Instr :=
  match decodeOpcode (opcodeAtPc s) with
  | none => none
  | some sh => some (assembleOperand sh (s.memRead (s.pc + 1)) (s.memRead (s.pc + 2)))

/-- One instruction's worth of bytes from a table word, stored where the next fetch reads it, with the engine running.
DESIGN CHOICE, safe: it stands for the host's loading of a program (R114, R183; log entry 7). -/
def placeFetchWord (s : State) (nbits w : Nat) : State :=
  { s with halt := .running, mem := s.mem.writeBytes s.pc (tableWordBytes nbits w) }

end Sys2Proof.Machine
end

