-- ==== Sys2Proof/Machine/Step.lean ====
section
/-! DEFINITION. One step: one pass of the engine's loop (spec 41_execution_engine.md R101 to R106). -/

namespace Sys2Proof.Machine

/-- One step. A halted machine does nothing (R101): its step is the same state (DEDUCED, safe, log entry 3). A running one fetches at PC and executes the instruction there
(R103 to R106), or takes UnrecognizedOpcode (R104, 60_exceptions.md R162). -/
def step (s : State) : Host.Outcome State Fault Refusal :=
  match s.halt with
  | .halted _ _ => .next s
  | .running =>
    match fetchInstr s with
    | some i => exec i s
    | none => .next (s.takeUnrecognizedOpcode (opcodeAtPc s))

/-- The state with a table word's instruction where the next step fetches: its bytes at PC, and the engine running,
without which nothing is fetched (R101). -/
def State.withFetchWord (s : State) (nbits w : Nat) : State := placeFetchWord s nbits w

end Sys2Proof.Machine
end

