-- ==== Sys2Proof/Machine/Accesses.lean ====
section
/-! DEFINITION. The memory accesses an instruction makes, in order (spec 20_memory.md R49). -/

namespace Sys2Proof.Machine

/-- One one-byte access (R48). -/
inductive Access where
  | read (addr : Word)
  | write (addr : Word) (v : Byte)
  deriving DecidableEq, Repr

/-- Reads of `n` consecutive bytes, wrapping at 0xFFFF. -/
def readsFrom (addr : Word) : Nat → List Access
  | 0 => []
  | n + 1 => .read addr :: readsFrom (addr + 1) n

/-- The pointer reads at a zero-page address: low byte, then high byte (R92, R93). -/
def pointerReads (p : Byte) (s : State) : List Access :=
  match zpNext s.params.zpPointerWrap p with
  | .ok next => [.read (zext16 p), .read next]
  | .error _ => [.read (zext16 p)]

/-- The pointer reads of a mode; only the two indirect modes have any. -/
def modeReads (m : AddrMode) (s : State) : List Access :=
  match m with
  | .zeroPage _ => []
  | .zeroPageX _ => []
  | .zeroPageY _ => []
  | .absolute _ => []
  | .absoluteX _ => []
  | .absoluteY _ => []
  | .indexedIndirectX zz => pointerReads (zpIndexed zz s.x) s
  | .indirectIndexedY zz => pointerReads zz s

/-- The data access at an effective address: a read for a load, a write of the source register for a store. -/
def dataAccess (op : Mnemonic) (addr : Word) (s : State) : Access :=
  match op with
  | .lda => .read addr
  | .ldx => .read addr
  | .ldy => .read addr
  | .sta => .write addr s.a
  | .stx => .write addr s.x
  | .sty => .write addr s.y

/-- The accesses of the instruction `i` at PC (R49): its own bytes, the pointer bytes, the data access. Where
the resolver refuses (R96) the list ends before the data access (DESIGN CHOICE, safe, log entry 12). -/
def instrAccesses (i : Instr) (s : State) : List Access :=
  readsFrom s.pc i.length ++
    (match instrAddrMode i with
    | none => []
    | some m =>
      modeReads m s ++
        (match effectiveAddress m s with
        | .ok e => [dataAccess i.mnemonic e.addr s]
        | .error _ => []))

/-- Memory after a list of accesses; reads leave it unchanged (R41, R42). -/
def applyAccesses : List Access → Memory → Memory
  | [], m => m
  | .read _ :: as, m => applyAccesses as m
  | .write addr v :: as, m => applyAccesses as (m.write addr v)

/-- The accesses of one step: none when halted (R101), the opcode byte alone when it is unrecognized (R104). -/
def stepAccesses (s : State) : List Access :=
  match s.halt with
  | .halted _ _ => []
  | .running =>
    match fetchInstr s with
    | some i => instrAccesses i s
    | none => [.read s.pc]

end Sys2Proof.Machine
end

