-- ==== Sys2Proof/Machine/Engine.lean ====
section
/-! DEFINITION. `execute(cycle_budget)`: the loop around the step (spec 41_execution_engine.md R100 to R109). -/

namespace Sys2Proof.Machine

/-- The engine's loop with the local budget (R102): while the budget is positive and the engine runs, one instruction,
whose cycles are charged against the budget as against CYC (R108). The budget is tested only between instructions
(R109). `fuel` bounds the number of instructions. DEDUCED, safe: the cycles charged are the growth of CYC, since both
are charged at once (log entry 8). -/
def executeLoop : Nat → Int → State → Host.Outcome State Fault Refusal
  | 0, _, s => .next s
  | fuel + 1, budget, s =>
    if 0 < budget ∧ s.halt = .running then
      match step s with
      | .next s' => executeLoop fuel (budget - ((s'.cyc : Int) - (s.cyc : Int))) s'
      | .fault r => .fault r
      | .refused r => .refused r
    else .next s

/-- `execute(cycle_budget)` (R100 to R102). Every instruction charges at least one cycle (R110), so no more instructions
than the budget has cycles can start. -/
def execute (budget : Int) (s : State) : Host.Outcome State Fault Refusal :=
  executeLoop budget.toNat budget s

end Sys2Proof.Machine
end

