-- ==== Sys2Proof/Machine/HostPort.lean ====
section
/-! DEFINITION. The host's operations (spec 41_execution_engine.md R114) and machine creation
(70_reset_and_hazards.md R182). -/

namespace Sys2Proof.Machine

/-- What `load_state` is given: values for A, X, Y, SP, PC and the seven flags (R114), of any size;
natural numbers, since no value of the spec is signed (R9; DEDUCED, safe, log entry 11). -/
structure LoadValues where
  a : Nat
  x : Nat
  y : Nat
  sp : Nat
  pc : Nat
  flagC : Nat
  flagZ : Nat
  flagI : Nat
  flagD : Nat
  flagB : Nat
  flagV : Nat
  flagN : Nat
  deriving DecidableEq, Repr

/-- What `read_state` returns (R114): everything but MEM. -/
structure StateView where
  a : Byte
  x : Byte
  y : Byte
  sp : Byte
  pc : Word
  flagC : Bool
  flagZ : Bool
  flagI : Bool
  flagD : Bool
  flagB : Bool
  flagV : Bool
  flagN : Bool
  cyc : Nat
  halt : Halt
  deriving DecidableEq, Repr

/-- A value truncated to one bit (10_state.md R26). -/
def flagOf (v : Nat) : Bool := v % 2 == 1

/-- `load_state(s)`: the registers and flags, each truncated to its width (R114, R26); CYC, HALT and MEM stay. -/
def loadState (l : LoadValues) (s : State) : State :=
  { s with
    a := BitVec.ofNat 8 l.a
    x := BitVec.ofNat 8 l.x
    y := BitVec.ofNat 8 l.y
    sp := BitVec.ofNat 8 l.sp
    pc := BitVec.ofNat 16 l.pc
    flagC := flagOf l.flagC
    flagZ := flagOf l.flagZ
    flagI := flagOf l.flagI
    flagD := flagOf l.flagD
    flagB := flagOf l.flagB
    flagV := flagOf l.flagV
    flagN := flagOf l.flagN }

/-- `read_state()` (R114). -/
def readState (s : State) : StateView :=
  { a := s.a, x := s.x, y := s.y, sp := s.sp, pc := s.pc, flagC := s.flagC, flagZ := s.flagZ, flagI := s.flagI,
    flagD := s.flagD, flagB := s.flagB, flagV := s.flagV, flagN := s.flagN, cyc := s.cyc, halt := s.halt }

/-- The host's operations (R114). -/
inductive HostOp where
  | reset
  | execute (budget : Int)
  | memRead (addr : Word)
  | memWrite (addr : Word) (v : Nat)
  | readState
  | loadState (l : LoadValues)
  deriving DecidableEq, Repr

/-- What an operation returns to the host (R114). -/
inductive HostReply where
  | done
  | byte (b : Byte)
  | view (v : StateView)
  deriving DecidableEq, Repr

/-- A finished run of the engine as a host operation's result. -/
def doneAfter (o : Host.Outcome State Fault Refusal) : Host.Outcome (State × HostReply) Fault Refusal :=
  match o with
  | .next s => .next (s, .done)
  | .fault r => .fault r
  | .refused r => .refused r

/-- One host operation: the state after it and what it returns (R114). -/
def hostStep (op : HostOp) (s : State) : Host.Outcome (State × HostReply) Fault Refusal :=
  match op with
  | .reset => .next (s.resetOp, .done)
  | .execute budget => doneAfter (Sys2Proof.Machine.execute budget s)
  | .memRead addr => .next (s, .byte (s.memRead addr))
  | .memWrite addr v => .next (s.memWrite addr (BitVec.ofNat 8 (v % 256)), .done)
  | .readState => .next (s, .view (Sys2Proof.Machine.readState s))
  | .loadState l => .next (Sys2Proof.Machine.loadState l s, .done)

/-- A sequence of host operations, stopping at the first refusal (R116). -/
def hostRun : List HostOp → State → Host.Outcome State Fault Refusal
  | [], s => .next s
  | op :: ops, s =>
    match hostStep op s with
    | .next (s', _) => hostRun ops s'
    | .fault r => .fault r
    | .refused r => .refused r

/-- Machine creation (R182): CYC is 0, MEM is the launch input MEM_INIT, and the registers, flags and HALT are
those of the draw PRE_RESET_STATE, which may be any state (DEDUCED, safe, log entry 6). -/
def createMachine (params : Config.Params) (memInit : Word → Byte) (preReset : State) : State :=
  { preReset with cyc := 0, mem := Memory.ofFun memInit, params := params }

end Sys2Proof.Machine
end

