-- ==== Sys2Proof/WellFormed.lean ====
section
/-! DEFINITION. What the opcode table allows (spec 30_encoding.md R64, 40_addressing_modes.md R84, R94). An operand
needs no check: every value of every operand byte is legal (R68), and the operand types hold exactly those values. -/

namespace Sys2Proof

/-- The modes of each operation, the source's lists at the end of R64. -/
def Mnemonic.modes : Mnemonic → List Mode
  | .lda => [.immediate, .zeroPage, .zeroPageIndexedX, .absolute, .absoluteIndexedX, .absoluteIndexedY,
      .indexedIndirectX, .indirectIndexedY]
  | .ldx => [.immediate, .zeroPage, .zeroPageIndexedY, .absolute, .absoluteIndexedY]
  | .ldy => [.immediate, .zeroPage, .zeroPageIndexedX, .absolute, .absoluteIndexedX]
  | .sta => [.zeroPage, .zeroPageIndexedX, .absolute, .absoluteIndexedX, .absoluteIndexedY,
      .indexedIndirectX, .indirectIndexedY]
  | .stx => [.zeroPage, .zeroPageIndexedY, .absolute]
  | .sty => [.zeroPage, .zeroPageIndexedX, .absolute]

/-- The total cycles of each mode with no page crossing (R94). -/
def Mode.baseCycles : Mode → Nat
  | .immediate => 2
  | .zeroPage => 3
  | .zeroPageIndexedX => 4
  | .zeroPageIndexedY => 4
  | .absolute => 4
  | .absoluteIndexedX => 4
  | .absoluteIndexedY => 4
  | .indexedIndirectX => 6
  | .indirectIndexedY => 5

/-- The three modes the page-crossing cycle applies to (R84). -/
def Mode.pageCrossExtra : Mode → Bool
  | .immediate => false
  | .zeroPage => false
  | .zeroPageIndexedX => false
  | .zeroPageIndexedY => false
  | .absolute => false
  | .absoluteIndexedX => true
  | .absoluteIndexedY => true
  | .indexedIndirectX => false
  | .indirectIndexedY => true

/-- A descriptor is well formed when its operation has that mode and its base cycles are the mode's. -/
def Descriptor.wf (d : Descriptor) : Bool :=
  d.mnemonic.modes.contains d.mode && d.baseCycles == d.mode.baseCycles

/-- A table row is well formed when its descriptor is and it charges a page crossing exactly where R84 says. -/
def OpcodeRow.wf (r : OpcodeRow) : Bool :=
  r.descriptor.wf && r.pageCrossExtra == r.descriptor.mode.pageCrossExtra

/-- The descriptor of an instruction (R63). -/
def Instr.descriptor (i : Instr) : Descriptor :=
  { mnemonic := i.mnemonic, mode := i.mode, baseCycles := i.mode.baseCycles }

/-- An instruction is well formed when its descriptor is. The constructors of `Instr` admit no other
(`Laws.DescriptorInTable`). -/
def Instr.wf (i : Instr) : Bool := i.descriptor.wf

end Sys2Proof
end

