-- ==== Sys2Proof/Safety.lean ====
section
/-! DEFINITION. What counts as a faulted run, and the invariants of the machine, in the terms claims use. -/

namespace Sys2Proof.Machine

/-- A fault state (spec 41_execution_engine.md R116): the machine has halted on an unrecognized opcode. -/
def State.faulted (s : State) : Bool :=
  match s.halt with
  | .halted _ _ => true
  | .running => false

/-- A run of `n` steps that stops at no refusal and reaches no fault state (R116). -/
def safeFor : Nat → State → Bool
  | 0, s => !s.faulted
  | n + 1, s =>
    !s.faulted &&
      (match step s with
      | .next s' => safeFor n s'
      | .fault _ => false
      | .refused _ => false)

/-- `HALT` records only opcode bytes that the table does not hold (10_state.md R29, 30_encoding.md R67). -/
def State.haltRecordsUnrecognized (s : State) : Prop :=
  ∀ op addr, s.halt = .halted op addr → opcodeRow op = none

/-- The invariant of the machine: memory is in canonical form, and the halt record names an unrecognized byte. -/
structure State.Inv (s : State) : Prop where
  memWf : s.mem.wf
  haltRecord : s.haltRecordsUnrecognized

end Sys2Proof.Machine
end

