-- ==== Sys2Proof/Certificates/Slice0/Obligations.lean ====
section
/-! DEFINITION. The statements for the provers. The next states are written out from the spec's rules as numbers, not
through the model's own shared operations; `Memory.read` and `Memory.write` are the byte reads and writes that
`HostMemoryOperations` pins down. -/

open Sys2Proof Sys2Proof.Machine

namespace Sys2Proof.Machine

/-- The state with PC `len` bytes on, modulo 65536, and `cycles` more cycles counted. -/
def ranOn (len cycles : Nat) (s : State) : State :=
  { s with pc := BitVec.ofNat 16 (s.pc.toNat + len), cyc := s.cyc + cycles }

/-- The state after LDA of `v` (R120): Z iff `v` is 0, N iff `v` is 0x80 or more (R139). -/
def loadedA (v : Byte) (len cycles : Nat) (s : State) : State :=
  { ranOn len cycles s with a := v, flagZ := decide (v.toNat = 0), flagN := decide (128 ≤ v.toNat) }

/-- The state after LDX of `v`. -/
def loadedX (v : Byte) (len cycles : Nat) (s : State) : State :=
  { ranOn len cycles s with x := v, flagZ := decide (v.toNat = 0), flagN := decide (128 ≤ v.toNat) }

/-- The state after LDY of `v`. -/
def loadedY (v : Byte) (len cycles : Nat) (s : State) : State :=
  { ranOn len cycles s with y := v, flagZ := decide (v.toNat = 0), flagN := decide (128 ≤ v.toNat) }

/-- The state after a store of `v` at `addr` (R140). -/
def storedAt (addr : Word) (v : Byte) (len cycles : Nat) (s : State) : State :=
  { ranOn len cycles s with mem := s.mem.write addr v }

/-- The zero-page address of an unbounded sum. -/
def zpAddr (n : Nat) : Word := BitVec.ofNat 16 (n % 256)

/-- 1 when adding the index leaves the base's page, else 0: the equivalent test of R83. -/
def crossing (base : Nat) (index : Byte) : Nat := if base % 256 + index.toNat > 255 then 1 else 0

/-- The spec settles the sum's address: it has no carry out of bit 15, or the carry is dropped (R82). -/
def carrySettled (sum : Nat) (s : State) : Prop := s.params.eaCarryOut = .wrap ∨ sum ≤ 65535

/-- The spec does not settle it and the model refuses (R82). -/
def carryRefused (sum : Nat) (s : State) : Prop := s.params.eaCarryOut = .fault ∧ 65535 < sum

/-- The little-endian 16-bit value, as a number, whose low byte is at zero-page address `p` and whose high byte is at
`high` (R45). -/
def pointerValue (p : Byte) (high : Word) (s : State) : Nat :=
  (s.mem.read high).toNat * 256 + (s.mem.read (zpAddr p.toNat)).toNat

/-- The instruction `i` is encoded as `bytes`, its effect on `s` is the next state `t`, and a running machine with those
bytes at PC, modulo 65536, steps to `t`. -/
def CompletesAs (i : Instr) (bytes : List Byte) (s t : State) : Prop :=
  encode i = bytes ∧ exec i s = .next t ∧
    (s.halt = .running → s.mem.bytesFrom s.pc bytes.length = bytes → step s = .next t)

/-- The page-crossing outcome of a mode at a state (R83, R84). -/
def modeCrossing (m : Option AddrMode) (s : State) : Nat :=
  match m with
  | some (.absoluteX base) => crossing base.toNat s.x
  | some (.absoluteY base) => crossing base.toNat s.y
  | some (.indirectIndexedY zz) =>
    match pointerAt zz s with
    | .ok base => crossing base.toNat s.y
    | .error _ => 0
  | _ => 0

/-- The frame of a load whose destination is read by `dst`, the other two registers by `keep1` and `keep2`: when it
answers a next state, the destination holds the byte at the effective address (or, in mode Immediate, the operand
byte), Z and N are that byte's and never both 1, PC is past the instruction, no other register, flag, HALT or
parameter changes, and every byte of memory reads as before. -/
def LoadFrameFor (i : Instr) (dst keep1 keep2 : State → Byte) : Prop :=
  ∀ s t : State, exec i s = .next t →
    (∀ m e, instrAddrMode i = some m → effectiveAddress m s = .ok e → dst t = s.mem.read e.addr) ∧
    (instrAddrMode i = none → ∃ op, encode i = [op, dst t]) ∧
    t.flagZ = decide ((dst t).toNat = 0) ∧ t.flagN = decide (128 ≤ (dst t).toNat) ∧
    ¬ (t.flagZ = true ∧ t.flagN = true) ∧
    t.pc = BitVec.ofNat 16 (s.pc.toNat + i.length) ∧
    keep1 t = keep1 s ∧ keep2 t = keep2 s ∧ t.sp = s.sp ∧
    t.flagC = s.flagC ∧ t.flagI = s.flagI ∧ t.flagD = s.flagD ∧ t.flagB = s.flagB ∧ t.flagV = s.flagV ∧
    t.halt = s.halt ∧ t.params = s.params ∧
    ∀ addr, t.mem.read addr = s.mem.read addr

/-- The frame of a store in mode `m` from the register read by `src`: when it answers a next state, the byte at the
effective address is the register's and every other byte reads as before; the data access is that one write, with no
read of the byte before it; the cycles are the mode's and the page-crossing one; PC is past the instruction; and no
other register, no flag, HALT or parameter changes. -/
def StoreFrameFor (i : Instr) (m : AddrMode) (src : State → Byte) : Prop :=
  i.mode ≠ .immediate ∧
  ∀ s t : State, exec i s = .next t →
    (∃ e, effectiveAddress m s = .ok e ∧ t.mem.read e.addr = src s ∧
      (∀ addr, addr ≠ e.addr → t.mem.read addr = s.mem.read addr) ∧
      instrAccesses i s = readsFrom s.pc i.length ++ (modeReads m s ++ [.write e.addr (src s)])) ∧
    t.cyc = s.cyc + (i.mode.baseCycles + modeCrossing (some m) s) ∧
    t.pc = BitVec.ofNat 16 (s.pc.toNat + i.length) ∧
    t.a = s.a ∧ t.x = s.x ∧ t.y = s.y ∧ t.sp = s.sp ∧
    t.flagC = s.flagC ∧ t.flagZ = s.flagZ ∧ t.flagI = s.flagI ∧ t.flagD = s.flagD ∧ t.flagB = s.flagB ∧
    t.flagV = s.flagV ∧ t.flagN = s.flagN ∧ t.halt = s.halt ∧ t.params = s.params

/-- Two states that agree on everything the engine reads: A, X, Y, PC, HALT, MEM and the parameters. -/
def SameReadState (s u : State) : Prop :=
  s.a = u.a ∧ s.x = u.x ∧ s.y = u.y ∧ s.pc = u.pc ∧ s.halt = u.halt ∧ s.mem = u.mem ∧ s.params = u.params

end Sys2Proof.Machine

/-! Encoding and decoding. -/

/-- The encodings of the source's scenarios S1 to S5 and one of each other family, written out from R64, decode to the
instructions they stand for. -/
def Obligations.SpecEncodingsDecode : Prop :=
  decode [0xA9, 0x42] = .ok (.ldaImm 0x42, []) ∧ decode [0xB5, 0x80] = .ok (.ldaZpX 0x80, []) ∧
  decode [0xBD, 0x02, 0x44] = .ok (.ldaAbsX 0x4402, []) ∧ decode [0xA1, 0x20] = .ok (.ldaIndX 0x20, []) ∧
  decode [0x85, 0x02] = .ok (.staZp 0x02, []) ∧ decode [0xBE, 0xFF, 0x00] = .ok (.ldxAbsY 0x00FF, []) ∧
  decode [0xB4, 0x10] = .ok (.ldyZpX 0x10, []) ∧ decode [0x91, 0x40] = .ok (.staIndY 0x40, []) ∧
  decode [0x96, 0xFF] = .ok (.stxZpY 0xFF, []) ∧ decode [0x8C, 0x34, 0x12] = .ok (.styAbs 0x1234, []) ∧
  decode [0xFF] = .error (.unrecognizedOpcode 0xFF)

/-- Decoding an encoded instruction gives it back, with every operand, and leaves the bytes after it. -/
def Obligations.EncodeThenDecodeIsIdentity : Prop :=
  ∀ (i : Instr) (rest : List Byte), i.wf = true → decode (encode i ++ rest) = .ok (i, rest)

/-- What decodes is an encoding: no bit of the bytes decoded is dropped, and each instruction has one encoding. -/
def Obligations.DecodedBytesAreTheEncoding : Prop :=
  ∀ (bytes : List Byte) (i : Instr) (rest : List Byte), decode bytes = .ok (i, rest) → bytes = encode i ++ rest

/-- The decoder and the opcode table agree on every opcode byte: a byte with no row is unrecognized, and a byte with a row
gives the row's operation, mode and length, whatever follows. -/
def Obligations.DecoderFollowsOpcodeTable : Prop :=
  ∀ (op b1 b2 : Byte) (rest : List Byte),
    (opcodeRow op = none → decode (op :: b1 :: b2 :: rest) = .error (.unrecognizedOpcode op)) ∧
    (∀ row, opcodeRow op = some row → ∃ i tail, decode (op :: b1 :: b2 :: rest) = .ok (i, tail) ∧
      i.mnemonic = row.descriptor.mnemonic ∧ i.mode = row.descriptor.mode ∧
      tail.length + i.mode.length = rest.length + 3)

/-- R68: operand bytes are never checked; only the opcode byte can be unrecognized. -/
def Obligations.OperandBytesAreNeverChecked : Prop :=
  ∀ (op b1 b2 c1 c2 : Byte) (e : DecodeError), decode [op, b1, b2] = .error e →
    e = .unrecognizedOpcode op ∧ decode [op, c1, c2] = .error e

/-! The step. -/

/-- When the bytes at PC, modulo 65536, decode to an instruction, a step of a running machine is that instruction's
effect at that state: PC still at the opcode byte, since `exec` itself moves PC past the instruction. -/
def Obligations.StepRunsDecodedInstruction : Prop :=
  ∀ (s : State) (i : Instr) (rest : List Byte), s.halt = .running →
    decode (s.mem.bytesFrom s.pc 3) = .ok (i, rest) → step s = exec i s

/-- A table word placed by `withFetchWord` is what the next step runs. The placing is the model's (log entry 7). -/
def Obligations.PlacedTableWordRunsNext : Prop :=
  ∀ (s : State) (nbits w : Nat) (i : Instr), decodeTableWord nbits w = some i →
    step (s.withFetchWord nbits w) = exec i (s.withFetchWord nbits w)

/-- R162: an unrecognized opcode byte at PC sets B and HALT, leaves PC past it and charges one cycle; all else is
unchanged, only that byte is fetched, the `execute` call ends there, and later calls do nothing. That `step` answers this
state as a next state, where R116 speaks of a fault state, is the model's inference (log entry 3, DEDUCED). -/
def Obligations.UnrecognizedOpcodeIsTaken : Prop :=
  ∀ s t : State, s.halt = .running → opcodeRow (s.mem.read s.pc) = none →
    t = { ranOn 1 1 s with flagB := true, halt := .halted (s.mem.read s.pc) s.pc } →
    step s = .next t ∧ stepAccesses s = [.read s.pc] ∧
      (∀ budget : Int, 0 < budget → execute budget s = .next t) ∧ ∀ budget : Int, execute budget t = .next t

/-- R101: `execute` on a halted machine does nothing: no state changes and nothing is fetched. That a `step` of it, too, is
the same state with no access is the model's inference (log entry 3, DEDUCED). -/
def Obligations.HaltedMachineDoesNothing : Prop :=
  ∀ (s : State) (op : Byte) (addr : Word), s.halt = .halted op addr →
    (∀ budget : Int, execute budget s = .next s) ∧ step s = .next s ∧ stepAccesses s = []

/-- R167: only `reset()` leaves Halted; it sets HALT to Running and clears B with the other flags. `load_state` can clear B
and does not change HALT. No instruction runs while Halted, so no second trap is taken. That a `step` of a halted machine
is the same state is the model's inference (log entry 3, DEDUCED). -/
def Obligations.OnlyResetLeavesHalted : Prop :=
  (∀ (op : HostOp) (s s' : State) (r : HostReply), op ≠ .reset → s.halt ≠ .running →
    hostStep op s = .next (s', r) → s'.halt = s.halt) ∧
  (∀ (budget : Int) (s : State), s.halt ≠ .running → execute budget s = .next s ∧ step s = .next s) ∧
  (∀ s : State, ∃ s', hostStep .reset s = .next (s', .done) ∧ s'.halt = .running ∧ s'.flagB = false ∧
    s'.flagC = false ∧ s'.flagZ = false ∧ s'.flagI = false ∧ s'.flagD = false ∧ s'.flagV = false ∧
    s'.flagN = false) ∧
  (∀ (l : LoadValues) (s : State), ∃ s', hostStep (.loadState l) s = .next (s', .done) ∧ s'.halt = s.halt ∧
    (l.flagB = 0 → s'.flagB = false))

/-! The loads. -/

/-- R121, R129, R134: mode Immediate, 2 bytes, 2 cycles, no memory read but the two instruction bytes. -/
def Obligations.LoadImmediateResults : Prop :=
  ∀ (s : State) (v : Byte),
    CompletesAs (.ldaImm v) [0xA9, v] s (loadedA v 2 2 s) ∧
    CompletesAs (.ldxImm v) [0xA2, v] s (loadedX v 2 2 s) ∧
    CompletesAs (.ldyImm v) [0xA0, v] s (loadedY v 2 2 s) ∧
    instrAccesses (.ldaImm v) s = [.read s.pc, .read (s.pc + 1)] ∧
    instrAccesses (.ldxImm v) s = [.read s.pc, .read (s.pc + 1)] ∧
    instrAccesses (.ldyImm v) s = [.read s.pc, .read (s.pc + 1)]

/-- R122, R130, R135: mode ZeroPage, 2 bytes, 3 cycles. -/
def Obligations.LoadZeroPageResults : Prop :=
  ∀ (s : State) (zz : Byte),
    CompletesAs (.ldaZp zz) [0xA5, zz] s (loadedA (s.mem.read (zpAddr zz.toNat)) 2 3 s) ∧
    CompletesAs (.ldxZp zz) [0xA6, zz] s (loadedX (s.mem.read (zpAddr zz.toNat)) 2 3 s) ∧
    CompletesAs (.ldyZp zz) [0xA4, zz] s (loadedY (s.mem.read (zpAddr zz.toNat)) 2 3 s)

/-- R123, R131, R136: the zero-page indexed modes, wrapping inside page 0x00, 2 bytes, 4 cycles. -/
def Obligations.LoadZeroPageIndexedResults : Prop :=
  ∀ (s : State) (zz : Byte),
    CompletesAs (.ldaZpX zz) [0xB5, zz] s (loadedA (s.mem.read (zpAddr (zz.toNat + s.x.toNat))) 2 4 s) ∧
    CompletesAs (.ldxZpY zz) [0xB6, zz] s (loadedX (s.mem.read (zpAddr (zz.toNat + s.y.toNat))) 2 4 s) ∧
    CompletesAs (.ldyZpX zz) [0xB4, zz] s (loadedY (s.mem.read (zpAddr (zz.toNat + s.x.toNat))) 2 4 s)

/-- R124, R132, R137: mode Absolute, low byte first, 3 bytes, 4 cycles. -/
def Obligations.LoadAbsoluteResults : Prop :=
  ∀ (s : State) (l h : Byte) (addr : Word), addr = BitVec.ofNat 16 (h.toNat * 256 + l.toNat) →
    CompletesAs (.ldaAbs addr) [0xAD, l, h] s (loadedA (s.mem.read addr) 3 4 s) ∧
    CompletesAs (.ldxAbs addr) [0xAE, l, h] s (loadedX (s.mem.read addr) 3 4 s) ∧
    CompletesAs (.ldyAbs addr) [0xAC, l, h] s (loadedY (s.mem.read addr) 3 4 s)

/-- R125, R126, R133, R138: the absolute indexed modes, 3 bytes, 4 cycles and one more on a page crossing; the address is
the sum modulo 65536, and where `EA_CARRY_OUT = fault` and the sum exceeds 0xFFFF the model refuses. -/
def Obligations.LoadAbsoluteIndexedResults : Prop :=
  ∀ (s : State) (l h : Byte) (base : Word), base = BitVec.ofNat 16 (h.toNat * 256 + l.toNat) →
    (carrySettled (base.toNat + s.x.toNat) s →
      CompletesAs (.ldaAbsX base) [0xBD, l, h] s
        (loadedA (s.mem.read (BitVec.ofNat 16 (base.toNat + s.x.toNat))) 3 (4 + crossing base.toNat s.x) s) ∧
      CompletesAs (.ldyAbsX base) [0xBC, l, h] s
        (loadedY (s.mem.read (BitVec.ofNat 16 (base.toNat + s.x.toNat))) 3 (4 + crossing base.toNat s.x) s)) ∧
    (carrySettled (base.toNat + s.y.toNat) s →
      CompletesAs (.ldaAbsY base) [0xB9, l, h] s
        (loadedA (s.mem.read (BitVec.ofNat 16 (base.toNat + s.y.toNat))) 3 (4 + crossing base.toNat s.y) s) ∧
      CompletesAs (.ldxAbsY base) [0xBE, l, h] s
        (loadedX (s.mem.read (BitVec.ofNat 16 (base.toNat + s.y.toNat))) 3 (4 + crossing base.toNat s.y) s)) ∧
    (carryRefused (base.toNat + s.x.toNat) s →
      exec (.ldaAbsX base) s = .refused .eaCarryOut ∧ exec (.ldyAbsX base) s = .refused .eaCarryOut) ∧
    (carryRefused (base.toNat + s.y.toNat) s →
      exec (.ldaAbsY base) s = .refused .eaCarryOut ∧ exec (.ldxAbsY base) s = .refused .eaCarryOut)

/-- R127: mode IndexedIndirectX, 2 bytes, 6 cycles always; the pointer is at operand plus X modulo 256, its high byte where
`ZpNext` says, and where `ZpNext` refuses the model refuses. -/
def Obligations.LoadIndexedIndirectResults : Prop :=
  ∀ (s : State) (zz ptr : Byte), ptr = BitVec.ofNat 8 (zz.toNat + s.x.toNat) →
    (∀ high, zpNext s.params.zpPointerWrap ptr = .ok high →
      CompletesAs (.ldaIndX zz) [0xA1, zz] s
        (loadedA (s.mem.read (BitVec.ofNat 16 (pointerValue ptr high s))) 2 6 s)) ∧
    (ptr = 0xFF → s.params.zpPointerWrap = .fault → exec (.ldaIndX zz) s = .refused .zpPointerAtFF)

/-- R128: mode IndirectIndexedY, 2 bytes, 5 cycles and one more on a page crossing; Y is added to the pointer at the
operand. Where `ZpNext` or `Carry16` refuses the model refuses, `ZpNext` first. -/
def Obligations.LoadIndirectIndexedResults : Prop :=
  ∀ (s : State) (zz : Byte),
    (∀ (high : Word) (base : Nat), zpNext s.params.zpPointerWrap zz = .ok high → base = pointerValue zz high s →
      (carrySettled (base + s.y.toNat) s →
        CompletesAs (.ldaIndY zz) [0xB1, zz] s
          (loadedA (s.mem.read (BitVec.ofNat 16 (base + s.y.toNat))) 2 (5 + crossing base s.y) s)) ∧
      (carryRefused (base + s.y.toNat) s → exec (.ldaIndY zz) s = .refused .eaCarryOut)) ∧
    (zz = 0xFF → s.params.zpPointerWrap = .fault → exec (.ldaIndY zz) s = .refused .zpPointerAtFF)

/-! The stores. -/

/-- R141, R148, R151: mode ZeroPage, 2 bytes, 3 cycles. -/
def Obligations.StoreZeroPageResults : Prop :=
  ∀ (s : State) (zz : Byte),
    CompletesAs (.staZp zz) [0x85, zz] s (storedAt (zpAddr zz.toNat) s.a 2 3 s) ∧
    CompletesAs (.stxZp zz) [0x86, zz] s (storedAt (zpAddr zz.toNat) s.x 2 3 s) ∧
    CompletesAs (.styZp zz) [0x84, zz] s (storedAt (zpAddr zz.toNat) s.y 2 3 s)

/-- R142, R149, R152: the zero-page indexed modes, wrapping inside page 0x00, 2 bytes, 4 cycles. -/
def Obligations.StoreZeroPageIndexedResults : Prop :=
  ∀ (s : State) (zz : Byte),
    CompletesAs (.staZpX zz) [0x95, zz] s (storedAt (zpAddr (zz.toNat + s.x.toNat)) s.a 2 4 s) ∧
    CompletesAs (.stxZpY zz) [0x96, zz] s (storedAt (zpAddr (zz.toNat + s.y.toNat)) s.x 2 4 s) ∧
    CompletesAs (.styZpX zz) [0x94, zz] s (storedAt (zpAddr (zz.toNat + s.x.toNat)) s.y 2 4 s)

/-- R143, R150, R153: mode Absolute, 3 bytes, 4 cycles. -/
def Obligations.StoreAbsoluteResults : Prop :=
  ∀ (s : State) (l h : Byte) (addr : Word), addr = BitVec.ofNat 16 (h.toNat * 256 + l.toNat) →
    CompletesAs (.staAbs addr) [0x8D, l, h] s (storedAt addr s.a 3 4 s) ∧
    CompletesAs (.stxAbs addr) [0x8E, l, h] s (storedAt addr s.x 3 4 s) ∧
    CompletesAs (.styAbs addr) [0x8C, l, h] s (storedAt addr s.y 3 4 s)

/-- R144, R145: the absolute indexed modes, 3 bytes, 4 cycles and one more on a page crossing; refusals as for loads. -/
def Obligations.StoreAbsoluteIndexedResults : Prop :=
  ∀ (s : State) (l h : Byte) (base : Word), base = BitVec.ofNat 16 (h.toNat * 256 + l.toNat) →
    (carrySettled (base.toNat + s.x.toNat) s →
      CompletesAs (.staAbsX base) [0x9D, l, h] s
        (storedAt (BitVec.ofNat 16 (base.toNat + s.x.toNat)) s.a 3 (4 + crossing base.toNat s.x) s)) ∧
    (carrySettled (base.toNat + s.y.toNat) s →
      CompletesAs (.staAbsY base) [0x99, l, h] s
        (storedAt (BitVec.ofNat 16 (base.toNat + s.y.toNat)) s.a 3 (4 + crossing base.toNat s.y) s)) ∧
    (carryRefused (base.toNat + s.x.toNat) s → exec (.staAbsX base) s = .refused .eaCarryOut) ∧
    (carryRefused (base.toNat + s.y.toNat) s → exec (.staAbsY base) s = .refused .eaCarryOut)

/-- R146: mode IndexedIndirectX, 2 bytes, 6 cycles always. -/
def Obligations.StoreIndexedIndirectResults : Prop :=
  ∀ (s : State) (zz ptr : Byte), ptr = BitVec.ofNat 8 (zz.toNat + s.x.toNat) →
    (∀ high, zpNext s.params.zpPointerWrap ptr = .ok high →
      CompletesAs (.staIndX zz) [0x81, zz] s
        (storedAt (BitVec.ofNat 16 (pointerValue ptr high s)) s.a 2 6 s)) ∧
    (ptr = 0xFF → s.params.zpPointerWrap = .fault → exec (.staIndX zz) s = .refused .zpPointerAtFF)

/-- R147: mode IndirectIndexedY, 2 bytes, 5 cycles and one more on a page crossing. -/
def Obligations.StoreIndirectIndexedResults : Prop :=
  ∀ (s : State) (zz : Byte),
    (∀ (high : Word) (base : Nat), zpNext s.params.zpPointerWrap zz = .ok high → base = pointerValue zz high s →
      (carrySettled (base + s.y.toNat) s →
        CompletesAs (.staIndY zz) [0x91, zz] s
          (storedAt (BitVec.ofNat 16 (base + s.y.toNat)) s.a 2 (5 + crossing base s.y) s)) ∧
      (carryRefused (base + s.y.toNat) s → exec (.staIndY zz) s = .refused .eaCarryOut)) ∧
    (zz = 0xFF → s.params.zpPointerWrap = .fault → exec (.staIndY zz) s = .refused .zpPointerAtFF)

/-! The resolver's helpers. -/

/-- R81: the address of a zero-page pointer's high byte under each setting; below 0xFF the three settings agree. -/
def Obligations.ZpNextFollowsTheParameter : Prop :=
  ∀ p : Byte,
    zpNext .wrap p = .ok (BitVec.ofNat 16 ((p.toNat + 1) % 256)) ∧
    zpNext .linear p = .ok (BitVec.ofNat 16 (p.toNat + 1)) ∧
    (p.toNat < 0xFF → zpNext .fault p = .ok (BitVec.ofNat 16 (p.toNat + 1))) ∧
    (p.toNat = 0xFF → zpNext .fault p = .error .zpPointerAtFF) ∧
    (p.toNat < 0xFF → ∀ one other : Config.ZpPointerWrap, zpNext one p = zpNext other p)

/-- R82: an indexed sum reduced to an address under each setting; up to 0xFFFF the two settings agree. -/
def Obligations.Carry16FollowsTheParameter : Prop :=
  ∀ sum : Nat,
    carry16 .wrap sum = .ok (BitVec.ofNat 16 (sum % 65536)) ∧
    (sum ≤ 0xFFFF → carry16 .fault sum = .ok (BitVec.ofNat 16 sum) ∧ carry16 .fault sum = carry16 .wrap sum) ∧
    (0xFFFF < sum → carry16 .fault sum = .error .eaCarryOut)

/-- R83: the page-crossing test compares bits 15 to 8 of base and sum; it is the carry out of the low byte, is the same on the sum reduced to 16
bits, and never holds for an index of 0. -/
def Obligations.PageCrossIsLowByteCarry : Prop :=
  ∀ (base : Word) (index : Byte),
    (pageCross base (base.toNat + index.toNat) = 1 ↔
      base.toNat &&& 0xFF00 ≠ (base.toNat + index.toNat) &&& 0xFF00) ∧
    (pageCross base (base.toNat + index.toNat) = 1 ↔ base.toNat % 256 + index.toNat > 0xFF) ∧
    pageCross base ((base.toNat + index.toNat) % 65536) = pageCross base (base.toNat + index.toNat) ∧
    (pageCross base (base.toNat + index.toNat) = 0 ∨ pageCross base (base.toNat + index.toNat) = 1) ∧
    pageCross base (base.toNat + 0) = 0

/-- R96: a recognized instruction always completes, except where a parameter set to `fault` makes the model refuse, with
that parameter's reason. -/
def Obligations.OnlyFaultSettingsRefuse : Prop :=
  ∀ (i : Instr) (s : State),
    (∃ t, exec i s = .next t) ∨
    (exec i s = .refused .eaCarryOut ∧ s.params.eaCarryOut = .fault ∧ i.mode.pageCrossExtra = true) ∨
    (exec i s = .refused .zpPointerAtFF ∧ s.params.zpPointerWrap = .fault ∧
      (i.mode = .indexedIndirectX ∨ i.mode = .indirectIndexedY))

/-! Frames. -/

/-- R120, R139: what each of the 18 loads changes and leaves alone. -/
def Obligations.LoadFrame : Prop :=
  ∀ i : Instr,
    (i.mnemonic = .lda → LoadFrameFor i (·.a) (·.x) (·.y)) ∧
    (i.mnemonic = .ldx → LoadFrameFor i (·.x) (·.a) (·.y)) ∧
    (i.mnemonic = .ldy → LoadFrameFor i (·.y) (·.a) (·.x))

/-- R140: what each of the 13 stores changes and leaves alone; the address is the one `effectiveAddress` gives for the
mode at the state the instruction begins with. -/
def Obligations.StoreFrame : Prop :=
  ∀ (zz : Byte) (addr : Word),
    StoreFrameFor (.staZp zz) (.zeroPage zz) (·.a) ∧
    StoreFrameFor (.staZpX zz) (.zeroPageX zz) (·.a) ∧
    StoreFrameFor (.staAbs addr) (.absolute addr) (·.a) ∧
    StoreFrameFor (.staAbsX addr) (.absoluteX addr) (·.a) ∧
    StoreFrameFor (.staAbsY addr) (.absoluteY addr) (·.a) ∧
    StoreFrameFor (.staIndX zz) (.indexedIndirectX zz) (·.a) ∧
    StoreFrameFor (.staIndY zz) (.indirectIndexedY zz) (·.a) ∧
    StoreFrameFor (.stxZp zz) (.zeroPage zz) (·.x) ∧
    StoreFrameFor (.stxZpY zz) (.zeroPageY zz) (·.x) ∧
    StoreFrameFor (.stxAbs addr) (.absolute addr) (·.x) ∧
    StoreFrameFor (.styZp zz) (.zeroPage zz) (·.y) ∧
    StoreFrameFor (.styZpX zz) (.zeroPageX zz) (·.y) ∧
    StoreFrameFor (.styAbs addr) (.absolute addr) (·.y)

/-- PC only advances, by the instruction's length, modulo 65536 (R25, R60, R115): no instruction transfers control. -/
def Obligations.PcOnlyAdvancesByLength : Prop :=
  ∀ (i : Instr) (s t : State), exec i s = .next t →
    t.pc.toNat = (s.pc.toNat + (encode i).length) % 65536 ∧ 2 ≤ (encode i).length ∧ (encode i).length ≤ 3

/-- R110: the cycles an instruction charges are its opcode's base cycles of the table, and one more exactly on a page
crossing of a mode the table marks: 2 to 6. An unrecognized opcode charges 1. -/
def Obligations.CyclesCharged : Prop :=
  (∀ (i : Instr) (s t : State) (op : Byte) (operands : List Byte) (row : OpcodeRow), exec i s = .next t →
    encode i = op :: operands → opcodeRow op = some row →
    t.cyc = s.cyc + (row.descriptor.baseCycles + modeCrossing (instrAddrMode i) s) ∧
    (row.pageCrossExtra = false → modeCrossing (instrAddrMode i) s = 0) ∧
    s.cyc + 2 ≤ t.cyc ∧ t.cyc ≤ s.cyc + 6) ∧
  (∀ s t : State, s.halt = .running → opcodeRow (s.mem.read s.pc) = none → step s = .next t → t.cyc = s.cyc + 1)

/-- No step changes SP, C, I, D, V or a parameter, and B changes only by UnrecognizedOpcode, which sets it and halts
(R23, R27). -/
def Obligations.StepKeepsInertState : Prop :=
  ∀ s t : State, step s = .next t →
    t.sp = s.sp ∧ t.flagC = s.flagC ∧ t.flagI = s.flagI ∧ t.flagD = s.flagD ∧ t.flagV = s.flagV ∧
    t.params = s.params ∧ (t.flagB = s.flagB ∨ t.flagB = true ∧ s.halt = .running ∧ t.halt ≠ .running)

/-- No step reads SP, a flag or CYC (R23, R27, R28): two states that agree on the rest step to states that agree on the
rest, with the same cycles charged, or are both refused for the same reason. -/
def Obligations.InertStateIsNeverRead : Prop :=
  ∀ s u : State, SameReadState s u →
    (∀ t, step s = .next t → ∃ w, step u = .next w ∧ SameReadState t w ∧ t.cyc + u.cyc = w.cyc + s.cyc) ∧
    (∀ r, step s = .refused r → step u = .refused r)

/-! Memory accesses. -/

/-- A step changes memory exactly as its access list does (R49): by its one data write, if it has one. -/
def Obligations.StepWritesExactlyItsAccesses : Prop :=
  ∀ s t : State, step s = .next t →
    t.mem = applyAccesses (stepAccesses s) s.mem ∧
    ∀ addr, (∀ v, .write addr v ∉ stepAccesses s) → t.mem.read addr = s.mem.read addr

/-- A step reads no byte outside its access list (R49): another memory that agrees on the bytes read gives the same next
state, but for the memory itself. -/
def Obligations.StepReadsOnlyItsAccesses : Prop :=
  ∀ (s t : State) (m : Memory), (∀ addr, .read addr ∈ stepAccesses s → m.read addr = s.mem.read addr) →
    step s = .next t → step { s with mem := m } = .next { t with mem := applyAccesses (stepAccesses s) m }

/-- A byte a step stores is what the next step fetches there (R55): if PC then stands at the stored address, the opcode
fetched is the stored byte, whatever stood there before. -/
def Obligations.StoreIsSeenByTheNextFetch : Prop :=
  ∀ (s t : State) (addr : Word) (v : Byte), step s = .next t → .write addr v ∈ stepAccesses s →
    t.mem.read addr = v ∧ (t.pc = addr → opcodeAtPc t = v)

/-! The engine. -/

/-- R102: a budget of 0 or less runs nothing; otherwise one instruction runs and the loop goes on with the budget less the
cycles it charged, whether it returns, halts or is refused. -/
def Obligations.ExecuteLoopsWhileBudgetPositive : Prop :=
  ∀ (budget : Int) (s : State),
    (budget ≤ 0 → execute budget s = .next s) ∧
    (0 < budget → s.halt = .running →
      (∀ t, step s = .next t → execute budget s = execute (budget - ((t.cyc : Int) - (s.cyc : Int))) t) ∧
      (∀ t, step s = .next t → t.halt ≠ .running → execute budget s = .next t) ∧
      (∀ r, step s = .refused r → execute budget s = .refused r))

/-- R111: a call with a positive budget that returns without UnrecognizedOpcode has charged between the budget and five
more; one that halts has charged between 1 and the budget. -/
def Obligations.BudgetOvershootIsAtMostFive : Prop :=
  ∀ (budget : Int) (s t : State), 0 < budget → s.halt = .running → execute budget s = .next t →
    (t.halt = .running → budget ≤ (t.cyc : Int) - s.cyc ∧ (t.cyc : Int) - s.cyc ≤ budget + 5) ∧
    (t.halt ≠ .running → 1 ≤ (t.cyc : Int) - s.cyc ∧ (t.cyc : Int) - s.cyc ≤ budget)

/-- `execute(1)` is one step, the host's single step (R174); halted, it is no step (R101), as `step` is. -/
def Obligations.ExecuteOneIsOneStep : Prop := ∀ s : State, execute 1 s = step s

/-- `execute` is a run of steps (R102, R112): for every call there is a number of steps, at most the budget, whose run
ends as the call does. -/
def Obligations.ExecuteIsARunOfSteps : Prop :=
  ∀ (budget : Int) (s : State), ∃ k : Nat, k ≤ budget.toNat ∧ execute budget s = Host.Core.run Sys2Proof.core k s

/-! Reset, creation and the host's operations. -/

/-- R180: `reset()` from any state. SP = 0x00 is the spec's decision D4; CYC, MEM and the parameters stay. -/
def Obligations.ResetOperation : Prop :=
  ∀ s : State, hostStep .reset s = .next
    ({ a := 0x00, x := 0x00, y := 0x00, sp := 0x00, pc := 0xFFFC, flagC := false, flagZ := false, flagI := false,
       flagD := false, flagB := false, flagV := false, flagN := false, cyc := s.cyc, halt := .running, mem := s.mem,
       params := s.params }, .done)

/-- The first instruction after `reset()` is the one at 0xFFFC itself, whatever the bytes there: they are no vector; its
operand bytes come from 0xFFFD and 0xFFFE (R181). -/
def Obligations.ResetEntersAtFFFC : Prop :=
  ∀ (s : State) (i : Instr) (rest : List Byte),
    decode [s.mem.read 0xFFFC, s.mem.read 0xFFFD, s.mem.read 0xFFFE] = .ok (i, rest) →
    s.resetOp.pc = 0xFFFC ∧ step s.resetOp = exec i s.resetOp

/-- `State.reset` is creation from the all-zero MEM_INIT with the default parameters, then `reset()`, whatever
PRE_RESET_STATE was. The all-zero memory is the model's choice (log entry 1). -/
def Obligations.ResetStateIsCreationThenReset : Prop :=
  ∀ pre : State, hostStep .reset (createMachine Config.defaultParams (fun _ => 0x00) pre) = .next (State.reset, .done)

/-- R182: at creation CYC is 0, memory is MEM_INIT, any function from address to byte, and the registers, flags and HALT
are the draw PRE_RESET_STATE, any of them. That memory is in canonical form is the model's own representation (log entry 1,
DESIGN CHOICE). -/
def Obligations.CreationTakesMemInitAndDraw : Prop :=
  ∀ (params : Config.Params) (memInit : Word → Byte) (pre : State),
    (createMachine params memInit pre).cyc = 0 ∧
    (∀ addr, (createMachine params memInit pre).mem.read addr = memInit addr) ∧
    (createMachine params memInit pre).mem.wf ∧
    readState (createMachine params memInit pre) = { readState pre with cyc := 0 }

/-- R41, R42: `mem_read` returns the byte and changes nothing; after `mem_write` the byte at the address is the value modulo
256 and no other byte or state changes. -/
def Obligations.HostMemoryOperations : Prop :=
  ∀ (s : State) (addr : Word) (v : Nat),
    hostStep (.memRead addr) s = .next (s, .byte (s.mem.read addr)) ∧
    ∃ m : Memory, hostStep (.memWrite addr v) s = .next ({ s with mem := m }, .done) ∧
      (m.read addr).toNat = v % 256 ∧ ∀ other, other ≠ addr → m.read other = s.mem.read other

/-- `load_state` writes the registers and flags, each truncated to its width, and not CYC, HALT or MEM; `read_state` then
returns them (R114, R26). -/
def Obligations.LoadThenReadState : Prop :=
  ∀ (l : LoadValues) (s : State), ∃ t : State,
    hostStep (.loadState l) s = .next (t, .done) ∧ t.mem = s.mem ∧ t.params = s.params ∧
    hostStep .readState t = .next (t, .view
      { a := BitVec.ofNat 8 l.a, x := BitVec.ofNat 8 l.x, y := BitVec.ofNat 8 l.y, sp := BitVec.ofNat 8 l.sp,
        pc := BitVec.ofNat 16 l.pc, flagC := decide (l.flagC % 2 = 1), flagZ := decide (l.flagZ % 2 = 1),
        flagI := decide (l.flagI % 2 = 1), flagD := decide (l.flagD % 2 = 1), flagB := decide (l.flagB % 2 = 1),
        flagV := decide (l.flagV % 2 = 1), flagN := decide (l.flagN % 2 = 1), cyc := s.cyc, halt := s.halt })

/-- CYC never decreases under any host operation, and none but `execute` changes it (R28, R171). -/
def Obligations.CycleCounterNeverDecreases : Prop :=
  ∀ (op : HostOp) (s t : State) (r : HostReply), hostStep op s = .next (t, r) →
    s.cyc ≤ t.cyc ∧ ((∀ budget, op ≠ .execute budget) → t.cyc = s.cyc)

/-! Invariants. -/

/-- The invariant holds at `State.reset`. -/
def Obligations.ResetStateMeetsInvariant : Prop := State.reset.Inv

/-- Every step keeps the invariant: memory stays in canonical form, and HALT records only unrecognized bytes. -/
def Obligations.StepKeepsInvariant : Prop := ∀ s t : State, s.Inv → step s = .next t → t.Inv

/-- Every host operation keeps the invariant, `execute` calls of any budget among them, and so does every sequence of
them; after creation and one `reset()` it holds whatever MEM_INIT and PRE_RESET_STATE were. -/
def Obligations.HostRunsKeepInvariant : Prop :=
  (∀ (ops : List HostOp) (s t : State), s.Inv → hostRun ops s = .next t → t.Inv) ∧
  (∀ (params : Config.Params) (memInit : Word → Byte) (pre : State) (ops : List HostOp) (t : State),
    hostRun (.reset :: ops) (createMachine params memInit pre) = .next t → t.Inv)
end

