-- ==== Sys2Proof/Laws/Bits.lean ====
section
/-! SUPPORT. The byte-order helpers, the index sums and the flag computations, as numbers. -/

namespace Sys2Proof

@[simp] theorem zext16_toNat (b : Byte) : (zext16 b).toNat = b.toNat := by
  have := b.isLt
  simp only [zext16, BitVec.toNat_ofNat]; omega

@[simp] theorem le16_toNat (lo hi : Byte) : (le16 lo hi).toNat = hi.toNat * 256 + lo.toNat := by
  have := lo.isLt; have := hi.isLt
  simp only [le16, BitVec.toNat_ofNat]; omega

@[simp] theorem loByte_toNat (w : Word) : (loByte w).toNat = w.toNat % 256 := by
  simp only [loByte, BitVec.toNat_ofNat]; omega

@[simp] theorem hiByte_toNat (w : Word) : (hiByte w).toNat = w.toNat / 256 := by
  have := w.isLt
  simp only [hiByte, BitVec.toNat_ofNat]; omega

@[simp] theorem le16_loByte_hiByte (w : Word) : le16 (loByte w) (hiByte w) = w := by
  apply BitVec.eq_of_toNat_eq; simp only [le16_toNat, loByte_toNat, hiByte_toNat]; omega

@[simp] theorem loByte_le16 (lo hi : Byte) : loByte (le16 lo hi) = lo := by
  have := lo.isLt
  apply BitVec.eq_of_toNat_eq; simp only [le16_toNat, loByte_toNat]; omega

@[simp] theorem hiByte_le16 (lo hi : Byte) : hiByte (le16 lo hi) = hi := by
  have := lo.isLt
  apply BitVec.eq_of_toNat_eq; simp only [le16_toNat, hiByte_toNat]; omega

namespace Machine

@[simp] theorem zpIndexed_toNat (o index : Byte) : (zpIndexed o index).toNat = (o.toNat + index.toNat) % 256 := by
  simp [zpIndexed]

/-- PC after `n` bytes, as a number modulo 65536. -/
theorem word_add_ofNat (w : Word) (n : Nat) : w + BitVec.ofNat 16 n = BitVec.ofNat 16 (w.toNat + n) := by
  apply BitVec.eq_of_toNat_eq; simp

@[simp] theorem zeroOf_eq (v : Byte) : zeroOf v = decide (v.toNat = 0) := by
  rw [zeroOf, Bool.eq_iff_iff, beq_iff_eq, decide_eq_true_iff]
  exact ⟨fun h => by rw [h]; rfl, fun h => BitVec.eq_of_toNat_eq h⟩

@[simp] theorem negativeOf_eq (v : Byte) : negativeOf v = decide (128 ≤ v.toNat) := by
  have := v.isLt
  rw [negativeOf, BitVec.getLsbD, Nat.testBit_eq_decide_div_mod_eq, decide_eq_decide]
  omega

/-- Masking with 0xFF00 keeps the page number. -/
theorem and_page_mask (n : Nat) : n &&& 0xFF00 = n / 256 % 256 * 256 := by
  apply Nat.eq_of_testBit_eq
  intro k
  have h1 : (0xFF00 : Nat) = (2 ^ 8 - 1) <<< 8 := by decide
  have h2 : n / 256 % 256 * 256 = ((n >>> 8) % 2 ^ 8) <<< 8 := by
    rw [Nat.shiftRight_eq_div_pow, Nat.shiftLeft_eq]; norm_num
  rw [h1, h2]
  simp only [Nat.testBit_and, Nat.testBit_shiftLeft, Nat.testBit_two_pow_sub_one, Nat.testBit_mod_two_pow,
    Nat.testBit_shiftRight]
  by_cases hk : 8 ≤ k
  · have : 8 + (k - 8) = k := by omega
    simp [hk, this, Bool.and_comm]
  · simp [hk]

theorem pageCross_le_one (base : Word) (sum : Nat) : pageCross base sum ≤ 1 := by
  unfold pageCross; split <;> omega

/-- What `zpNext` can answer: the next address, which is the pointer's plus one below 0xFF, or its refusal. -/
theorem zpNext_below {p : Byte} (setting : Config.ZpPointerWrap) (h : p.toNat < 0xFF) :
    zpNext setting p = .ok (BitVec.ofNat 16 (p.toNat + 1)) := by
  have hz : zext16 p + 1#16 = BitVec.ofNat 16 (p.toNat + 1) := by
    apply BitVec.eq_of_toNat_eq; simp only [BitVec.toNat_add, zext16_toNat, BitVec.toNat_ofNat]
  have hw : zext16 (p + 1#8) = BitVec.ofNat 16 (p.toNat + 1) := by
    apply BitVec.eq_of_toNat_eq; simp only [zext16_toNat, BitVec.toNat_add, BitVec.toNat_ofNat]; omega
  cases setting
  · exact congrArg Except.ok hw
  · exact congrArg Except.ok hz
  · simpa [zpNext, h] using hz

theorem zpNext_error {setting : Config.ZpPointerWrap} {p : Byte} {r : Refusal} (h : zpNext setting p = .error r) :
    setting = .fault ∧ p = 0xFF ∧ r = .zpPointerAtFF := by
  cases setting <;> simp only [zpNext] at h
  · cases h
  · cases h
  · split at h
    · cases h
    · have := p.isLt
      refine ⟨rfl, BitVec.eq_of_toNat_eq ?_, by cases h; rfl⟩
      change p.toNat = 255; omega

theorem carry16_ok {setting : Config.EaCarryOut} {sum : Nat} {w : Word} (h : carry16 setting sum = .ok w) :
    w = BitVec.ofNat 16 sum ∧ (setting = .wrap ∨ sum ≤ 0xFFFF) := by
  cases setting <;> simp only [carry16] at h
  · cases h; exact ⟨rfl, .inl rfl⟩
  · split at h
    · cases h; exact ⟨rfl, .inr ‹_›⟩
    · cases h

theorem carry16_error {setting : Config.EaCarryOut} {sum : Nat} {r : Refusal} (h : carry16 setting sum = .error r) :
    setting = .fault ∧ 0xFFFF < sum ∧ r = .eaCarryOut := by
  cases setting <;> simp only [carry16] at h
  · cases h
  · split at h
    · cases h
    · exact ⟨rfl, by omega, by cases h; rfl⟩

theorem carry16_settled {setting : Config.EaCarryOut} {sum : Nat} (h : setting = .wrap ∨ sum ≤ 0xFFFF) :
    carry16 setting sum = .ok (BitVec.ofNat 16 sum) := by
  cases setting <;> simp_all [carry16]

end Machine

end Sys2Proof
end

