-- ==== Sys2Proof/Laws/Decode.lean ====
section
/-! SUPPORT. What the decoder can do with an opcode byte, said once, and what the fetch makes of it. -/

namespace Sys2Proof

/-- Every opcode byte is unrecognized by the decoder and the table alike, or has one instruction format in the decoder and
the row of the same operation and mode in the table. -/
theorem decodeOpcode_cases (op : Byte) :
    (decodeOpcode op = none ∧ opcodeRow op = none) ∨
    (∃ make mn mode cycles cross, decodeOpcode op = some (.oneByte make) ∧
      opcodeRow op = some { opcode := op, descriptor := { mnemonic := mn, mode := mode, baseCycles := cycles },
                            pageCrossExtra := cross } ∧
      ∀ v, encode (make v) = [op, v] ∧ (make v).mnemonic = mn ∧ (make v).mode = mode ∧ mode.length = 2) ∨
    (∃ make mn mode cycles cross, decodeOpcode op = some (.twoByte make) ∧
      opcodeRow op = some { opcode := op, descriptor := { mnemonic := mn, mode := mode, baseCycles := cycles },
                            pageCrossExtra := cross } ∧
      ∀ w, encode (make w) = [op, loByte w, hiByte w] ∧ (make w).mnemonic = mn ∧ (make w).mode = mode ∧
        mode.length = 3) := by
  unfold decodeOpcode
  split
  case h_32 =>
    refine .inl ⟨rfl, ?_⟩
    simp_all [opcodeRow, opcodeTable, findRow, loadRows, storeRows, eq_comm]
  all_goals
    first
    | exact .inr (.inl ⟨_, _, _, _, _, rfl, rfl, fun v => ⟨rfl, rfl, rfl, rfl⟩⟩)
    | exact .inr (.inr ⟨_, _, _, _, _, rfl, rfl, fun w => ⟨rfl, rfl, rfl, rfl⟩⟩)

namespace Machine

/-- The fetch finds no instruction where the table has no row. -/
theorem fetchInstr_none (s : State) (h : opcodeRow (s.mem.read s.pc) = none) : fetchInstr s = none := by
  rcases decodeOpcode_cases (s.mem.read s.pc) with ⟨hd, -⟩ | ⟨_, _, _, _, _, -, hr, -⟩ | ⟨_, _, _, _, _, -, hr, -⟩
  · simp [fetchInstr, opcodeAtPc, State.memRead, hd]
  · simp [hr] at h
  · simp [hr] at h

/-- Where the fetch finds no instruction, the table has no row. -/
theorem opcodeRow_of_fetchInstr_none (s : State) (h : fetchInstr s = none) : opcodeRow (s.mem.read s.pc) = none := by
  rcases decodeOpcode_cases (s.mem.read s.pc) with ⟨-, hr⟩ | ⟨_, _, _, _, _, hd, -, -⟩ | ⟨_, _, _, _, _, hd, -, -⟩
  · exact hr
  · simp [fetchInstr, opcodeAtPc, State.memRead, hd] at h
  · simp [fetchInstr, opcodeAtPc, State.memRead, hd] at h

end Machine

end Sys2Proof
end

