-- ==== Sys2Proof/Laws/Memory.lean ====
section
/-! SUPPORT. The laws of memory: reads after writes, the canonical form, and memories given by a function. -/

namespace Sys2Proof.Machine

variable (m : Memory) (addr b : Word) (v : Byte)

theorem Memory.read_erase :
    (m.erase addr).read b = if b = addr then Config.unlistedByte else m.read b := by
  induction m with
  | nil => simp [Memory.erase, Memory.read]
  | cons c m ih =>
    simp only [Memory.erase, List.filter_cons] at ih ⊢
    by_cases hc : c.1 = addr.toNat <;> by_cases hb : b = addr
    · simp_all
    · have : addr.toNat ≠ b.toNat := fun h => hb (BitVec.eq_of_toNat_eq h.symm)
      simp_all [Memory.read]
    · simp_all [Memory.read]
    · simp_all [Memory.read]

theorem Memory.read_insert : (m.insert addr v).read b = if b = addr then v else m.read b := by
  have key : addr.toNat = b.toNat ↔ b = addr :=
    ⟨fun h => BitVec.eq_of_toNat_eq h.symm, fun h => by rw [h]⟩
  induction m with
  | nil => simp [Memory.insert, Memory.read, key]
  | cons c m ih =>
    simp only [Memory.insert]
    split
    · by_cases hb : b = addr
      · subst hb
        have : c.1 ≠ b.toNat := by omega
        simp_all [Memory.read]
      · simp_all [Memory.read]
    · split <;> by_cases hb : b = addr <;> simp_all [Memory.read]

/-- A read after a write: the written byte at the address written, every other byte as before. -/
@[simp] theorem Memory.read_write : (m.write addr v).read b = if b = addr then v else m.read b := by
  unfold Memory.write
  split
  · rw [Memory.read_erase]; simp_all
  · exact Memory.read_insert m addr b v

theorem Memory.mem_insert {c : Host.Cell} (h : c ∈ m.insert addr v) : c = (addr.toNat, v) ∨ c ∈ m := by
  induction m with
  | nil => simpa [Memory.insert] using h
  | cons d m ih =>
    simp only [Memory.insert] at h
    split at h
    · rcases List.mem_cons.mp h with rfl | h
      · simp
      · rcases ih h with h | h <;> simp [h]
    · split at h <;> simp only [List.mem_cons] at h ⊢ <;> tauto

theorem Memory.erase_wf (h : m.wf) : (m.erase addr).wf :=
  ⟨h.1.filter _, fun c hc => h.2 c (List.mem_filter.mp hc).1⟩

theorem Memory.insert_wf (h : m.wf) (hv : v ≠ Config.unlistedByte) : (m.insert addr v).wf := by
  induction m with
  | nil => exact ⟨by simp [Memory.insert], by have := addr.isLt; simpa [Memory.insert, hv] using this⟩
  | cons d m ih =>
    obtain ⟨hp, hc⟩ := h
    obtain ⟨hd, hp'⟩ := List.pairwise_cons.mp hp
    have hm : Memory.wf m := ⟨hp', fun c hcm => hc c (List.mem_cons_of_mem _ hcm)⟩
    refine ⟨?_, fun c hcm => ?_⟩
    · simp only [Memory.insert]
      split
      · refine List.pairwise_cons.mpr ⟨fun c hcm => ?_, (ih hm).1⟩
        rcases Memory.mem_insert m addr v hcm with rfl | h
        · assumption
        · exact hd c h
      · split
        · exact List.pairwise_cons.mpr ⟨fun c hcm => by have := hd c hcm; omega, hp'⟩
        · refine List.pairwise_cons.mpr ⟨fun c hcm => ?_, hp⟩
          rcases List.mem_cons.mp hcm with rfl | h
          · simp only; omega
          · have := hd c h; simp only; omega
    · rcases Memory.mem_insert _ addr v hcm with rfl | h
      · exact ⟨by have := addr.isLt; simpa using this, hv⟩
      · exact hc c h

/-- A write keeps the canonical form. -/
theorem Memory.write_wf (h : m.wf) : (m.write addr v).wf := by
  unfold Memory.write
  split
  · exact Memory.erase_wf m addr h
  · exact Memory.insert_wf m addr v h ‹_›

/-- Writing consecutive bytes keeps the canonical form. -/
theorem Memory.writeBytes_wf (bs : List Byte) (h : m.wf) : (m.writeBytes addr bs).wf := by
  induction bs generalizing m addr with
  | nil => exact h
  | cons b bs ih => exact ih _ _ (Memory.write_wf m addr b h)

/-- The memory of `State.reset` is in canonical form. -/
theorem Memory.reset_wf : State.reset.mem.wf := by decide

theorem Memory.read_append (m' : Memory) (h : ∀ c ∈ m, c.1 ≠ b.toNat) :
    Memory.read (m ++ m') b = m'.read b := by
  induction m with
  | nil => rfl
  | cons c m ih => simp_all [Memory.read]

theorem Memory.read_append_left (m' : Memory) (h : ∀ c ∈ m', c.1 ≠ b.toNat) :
    Memory.read (m ++ m') b = m.read b := by
  induction m with
  | nil => simpa [Memory.read] using Memory.read_append m' b [] h
  | cons c m ih => simp_all [Memory.read]

theorem Memory.ofFunBelow_lt (f : Word → Byte) (n : Nat) : ∀ c ∈ Memory.ofFunBelow f n, c.1 < n := by
  induction n with
  | zero => simp [Memory.ofFunBelow]
  | succ n ih =>
    intro c hc
    rcases List.mem_append.mp hc with h | h
    · have := ih c h; omega
    · split at h
      · simp at h
      · simp only [List.mem_singleton] at h; subst h; exact Nat.lt_succ_self n

theorem Memory.read_ofFunBelow (f : Word → Byte) (n : Nat) :
    (Memory.ofFunBelow f n).read b = if b.toNat < n then f b else Config.unlistedByte := by
  induction n with
  | zero => simp [Memory.ofFunBelow, Memory.read]
  | succ n ih =>
    simp only [Memory.ofFunBelow]
    by_cases hb : b.toNat = n
    · have hn : BitVec.ofNat 16 n = b := by subst hb; simp
      rw [Memory.read_append _ _ _ (fun c hc => by have := Memory.ofFunBelow_lt f n c hc; omega), hn]
      split <;> simp_all [Memory.read]
    · rw [Memory.read_append_left _ _ _ (fun c hc => ?_), ih]
      · have : (b.toNat < n + 1) ↔ b.toNat < n := by omega
        simp [this]
      · split at hc
        · simp at hc
        · simp only [List.mem_singleton] at hc; subst hc; exact fun h => hb h.symm

theorem Memory.ofFunBelow_wf (f : Word → Byte) (n : Nat) (hn : n ≤ 65536) : (Memory.ofFunBelow f n).wf := by
  induction n with
  | zero => exact ⟨List.Pairwise.nil, by simp [Memory.ofFunBelow]⟩
  | succ n ih =>
    obtain ⟨hp, hc⟩ := ih (by omega)
    simp only [Memory.ofFunBelow]
    split
    · simpa using ⟨hp, hc⟩
    · refine ⟨List.pairwise_append.mpr ⟨hp, by simp, fun c hcm d hd => ?_⟩, fun c hcm => ?_⟩
      · simp only [List.mem_singleton] at hd; subst hd; exact Memory.ofFunBelow_lt f n c hcm
      · rcases List.mem_append.mp hcm with h | h
        · exact hc c h
        · simp only [List.mem_singleton] at h; subst h; exact ⟨by simp only; omega, ‹_›⟩

end Sys2Proof.Machine
end

