-- ==== Sys2Proof/Laws/State.lean ====
section
/-! SUPPORT. One lemma per field per state update, so that no proof unfolds a record update. -/

namespace Sys2Proof.Machine

variable (s : State)

@[simp] theorem memWrite_a (addr : Word) (v : Byte) : (s.memWrite addr v).a = s.a := rfl
@[simp] theorem memWrite_x (addr : Word) (v : Byte) : (s.memWrite addr v).x = s.x := rfl
@[simp] theorem memWrite_y (addr : Word) (v : Byte) : (s.memWrite addr v).y = s.y := rfl
@[simp] theorem memWrite_sp (addr : Word) (v : Byte) : (s.memWrite addr v).sp = s.sp := rfl
@[simp] theorem memWrite_pc (addr : Word) (v : Byte) : (s.memWrite addr v).pc = s.pc := rfl
@[simp] theorem memWrite_flagC (addr : Word) (v : Byte) : (s.memWrite addr v).flagC = s.flagC := rfl
@[simp] theorem memWrite_flagZ (addr : Word) (v : Byte) : (s.memWrite addr v).flagZ = s.flagZ := rfl
@[simp] theorem memWrite_flagI (addr : Word) (v : Byte) : (s.memWrite addr v).flagI = s.flagI := rfl
@[simp] theorem memWrite_flagD (addr : Word) (v : Byte) : (s.memWrite addr v).flagD = s.flagD := rfl
@[simp] theorem memWrite_flagB (addr : Word) (v : Byte) : (s.memWrite addr v).flagB = s.flagB := rfl
@[simp] theorem memWrite_flagV (addr : Word) (v : Byte) : (s.memWrite addr v).flagV = s.flagV := rfl
@[simp] theorem memWrite_flagN (addr : Word) (v : Byte) : (s.memWrite addr v).flagN = s.flagN := rfl
@[simp] theorem memWrite_cyc (addr : Word) (v : Byte) : (s.memWrite addr v).cyc = s.cyc := rfl
@[simp] theorem memWrite_halt (addr : Word) (v : Byte) : (s.memWrite addr v).halt = s.halt := rfl
@[simp] theorem memWrite_mem (addr : Word) (v : Byte) : (s.memWrite addr v).mem = s.mem.write addr v := rfl
@[simp] theorem memWrite_params (addr : Word) (v : Byte) : (s.memWrite addr v).params = s.params := rfl

@[simp] theorem advancePc_a (n : Nat) : (s.advancePc n).a = s.a := rfl
@[simp] theorem advancePc_x (n : Nat) : (s.advancePc n).x = s.x := rfl
@[simp] theorem advancePc_y (n : Nat) : (s.advancePc n).y = s.y := rfl
@[simp] theorem advancePc_sp (n : Nat) : (s.advancePc n).sp = s.sp := rfl
@[simp] theorem advancePc_pc (n : Nat) : (s.advancePc n).pc = s.pc + BitVec.ofNat 16 n := rfl
@[simp] theorem advancePc_flagC (n : Nat) : (s.advancePc n).flagC = s.flagC := rfl
@[simp] theorem advancePc_flagZ (n : Nat) : (s.advancePc n).flagZ = s.flagZ := rfl
@[simp] theorem advancePc_flagI (n : Nat) : (s.advancePc n).flagI = s.flagI := rfl
@[simp] theorem advancePc_flagD (n : Nat) : (s.advancePc n).flagD = s.flagD := rfl
@[simp] theorem advancePc_flagB (n : Nat) : (s.advancePc n).flagB = s.flagB := rfl
@[simp] theorem advancePc_flagV (n : Nat) : (s.advancePc n).flagV = s.flagV := rfl
@[simp] theorem advancePc_flagN (n : Nat) : (s.advancePc n).flagN = s.flagN := rfl
@[simp] theorem advancePc_cyc (n : Nat) : (s.advancePc n).cyc = s.cyc := rfl
@[simp] theorem advancePc_halt (n : Nat) : (s.advancePc n).halt = s.halt := rfl
@[simp] theorem advancePc_mem (n : Nat) : (s.advancePc n).mem = s.mem := rfl
@[simp] theorem advancePc_params (n : Nat) : (s.advancePc n).params = s.params := rfl

@[simp] theorem charge_a (n : Nat) : (s.charge n).a = s.a := rfl
@[simp] theorem charge_x (n : Nat) : (s.charge n).x = s.x := rfl
@[simp] theorem charge_y (n : Nat) : (s.charge n).y = s.y := rfl
@[simp] theorem charge_sp (n : Nat) : (s.charge n).sp = s.sp := rfl
@[simp] theorem charge_pc (n : Nat) : (s.charge n).pc = s.pc := rfl
@[simp] theorem charge_flagC (n : Nat) : (s.charge n).flagC = s.flagC := rfl
@[simp] theorem charge_flagZ (n : Nat) : (s.charge n).flagZ = s.flagZ := rfl
@[simp] theorem charge_flagI (n : Nat) : (s.charge n).flagI = s.flagI := rfl
@[simp] theorem charge_flagD (n : Nat) : (s.charge n).flagD = s.flagD := rfl
@[simp] theorem charge_flagB (n : Nat) : (s.charge n).flagB = s.flagB := rfl
@[simp] theorem charge_flagV (n : Nat) : (s.charge n).flagV = s.flagV := rfl
@[simp] theorem charge_flagN (n : Nat) : (s.charge n).flagN = s.flagN := rfl
@[simp] theorem charge_cyc (n : Nat) : (s.charge n).cyc = s.cyc + n := rfl
@[simp] theorem charge_halt (n : Nat) : (s.charge n).halt = s.halt := rfl
@[simp] theorem charge_mem (n : Nat) : (s.charge n).mem = s.mem := rfl
@[simp] theorem charge_params (n : Nat) : (s.charge n).params = s.params := rfl

@[simp] theorem setZN_a (v : Byte) : (setZN v s).a = s.a := rfl
@[simp] theorem setZN_x (v : Byte) : (setZN v s).x = s.x := rfl
@[simp] theorem setZN_y (v : Byte) : (setZN v s).y = s.y := rfl
@[simp] theorem setZN_sp (v : Byte) : (setZN v s).sp = s.sp := rfl
@[simp] theorem setZN_pc (v : Byte) : (setZN v s).pc = s.pc := rfl
@[simp] theorem setZN_flagC (v : Byte) : (setZN v s).flagC = s.flagC := rfl
@[simp] theorem setZN_flagZ (v : Byte) : (setZN v s).flagZ = zeroOf v := rfl
@[simp] theorem setZN_flagI (v : Byte) : (setZN v s).flagI = s.flagI := rfl
@[simp] theorem setZN_flagD (v : Byte) : (setZN v s).flagD = s.flagD := rfl
@[simp] theorem setZN_flagB (v : Byte) : (setZN v s).flagB = s.flagB := rfl
@[simp] theorem setZN_flagV (v : Byte) : (setZN v s).flagV = s.flagV := rfl
@[simp] theorem setZN_flagN (v : Byte) : (setZN v s).flagN = negativeOf v := rfl
@[simp] theorem setZN_cyc (v : Byte) : (setZN v s).cyc = s.cyc := rfl
@[simp] theorem setZN_halt (v : Byte) : (setZN v s).halt = s.halt := rfl
@[simp] theorem setZN_mem (v : Byte) : (setZN v s).mem = s.mem := rfl
@[simp] theorem setZN_params (v : Byte) : (setZN v s).params = s.params := rfl

@[simp] theorem takeUnrecognizedOpcode_a (op : Byte) : (s.takeUnrecognizedOpcode op).a = s.a := rfl
@[simp] theorem takeUnrecognizedOpcode_x (op : Byte) : (s.takeUnrecognizedOpcode op).x = s.x := rfl
@[simp] theorem takeUnrecognizedOpcode_y (op : Byte) : (s.takeUnrecognizedOpcode op).y = s.y := rfl
@[simp] theorem takeUnrecognizedOpcode_sp (op : Byte) : (s.takeUnrecognizedOpcode op).sp = s.sp := rfl
@[simp] theorem takeUnrecognizedOpcode_pc (op : Byte) : (s.takeUnrecognizedOpcode op).pc = s.pc + BitVec.ofNat 16 1 := rfl
@[simp] theorem takeUnrecognizedOpcode_flagC (op : Byte) : (s.takeUnrecognizedOpcode op).flagC = s.flagC := rfl
@[simp] theorem takeUnrecognizedOpcode_flagZ (op : Byte) : (s.takeUnrecognizedOpcode op).flagZ = s.flagZ := rfl
@[simp] theorem takeUnrecognizedOpcode_flagI (op : Byte) : (s.takeUnrecognizedOpcode op).flagI = s.flagI := rfl
@[simp] theorem takeUnrecognizedOpcode_flagD (op : Byte) : (s.takeUnrecognizedOpcode op).flagD = s.flagD := rfl
@[simp] theorem takeUnrecognizedOpcode_flagB (op : Byte) : (s.takeUnrecognizedOpcode op).flagB = true := rfl
@[simp] theorem takeUnrecognizedOpcode_flagV (op : Byte) : (s.takeUnrecognizedOpcode op).flagV = s.flagV := rfl
@[simp] theorem takeUnrecognizedOpcode_flagN (op : Byte) : (s.takeUnrecognizedOpcode op).flagN = s.flagN := rfl
@[simp] theorem takeUnrecognizedOpcode_cyc (op : Byte) : (s.takeUnrecognizedOpcode op).cyc = s.cyc + 1 := rfl
@[simp] theorem takeUnrecognizedOpcode_halt (op : Byte) : (s.takeUnrecognizedOpcode op).halt = .halted op s.pc := rfl
@[simp] theorem takeUnrecognizedOpcode_mem (op : Byte) : (s.takeUnrecognizedOpcode op).mem = s.mem := rfl
@[simp] theorem takeUnrecognizedOpcode_params (op : Byte) : (s.takeUnrecognizedOpcode op).params = s.params := rfl

@[simp] theorem resetOp_a : (s.resetOp).a = 0x00 := rfl
@[simp] theorem resetOp_x : (s.resetOp).x = 0x00 := rfl
@[simp] theorem resetOp_y : (s.resetOp).y = 0x00 := rfl
@[simp] theorem resetOp_sp : (s.resetOp).sp = 0x00 := rfl
@[simp] theorem resetOp_pc : (s.resetOp).pc = 0xFFFC := rfl
@[simp] theorem resetOp_flagC : (s.resetOp).flagC = false := rfl
@[simp] theorem resetOp_flagZ : (s.resetOp).flagZ = false := rfl
@[simp] theorem resetOp_flagI : (s.resetOp).flagI = false := rfl
@[simp] theorem resetOp_flagD : (s.resetOp).flagD = false := rfl
@[simp] theorem resetOp_flagB : (s.resetOp).flagB = false := rfl
@[simp] theorem resetOp_flagV : (s.resetOp).flagV = false := rfl
@[simp] theorem resetOp_flagN : (s.resetOp).flagN = false := rfl
@[simp] theorem resetOp_cyc : (s.resetOp).cyc = s.cyc := rfl
@[simp] theorem resetOp_halt : (s.resetOp).halt = .running := rfl
@[simp] theorem resetOp_mem : (s.resetOp).mem = s.mem := rfl
@[simp] theorem resetOp_params : (s.resetOp).params = s.params := rfl

@[simp] theorem loadState_a (l : LoadValues) : (loadState l s).a = BitVec.ofNat 8 l.a := rfl
@[simp] theorem loadState_x (l : LoadValues) : (loadState l s).x = BitVec.ofNat 8 l.x := rfl
@[simp] theorem loadState_y (l : LoadValues) : (loadState l s).y = BitVec.ofNat 8 l.y := rfl
@[simp] theorem loadState_sp (l : LoadValues) : (loadState l s).sp = BitVec.ofNat 8 l.sp := rfl
@[simp] theorem loadState_pc (l : LoadValues) : (loadState l s).pc = BitVec.ofNat 16 l.pc := rfl
@[simp] theorem loadState_flagC (l : LoadValues) : (loadState l s).flagC = flagOf l.flagC := rfl
@[simp] theorem loadState_flagZ (l : LoadValues) : (loadState l s).flagZ = flagOf l.flagZ := rfl
@[simp] theorem loadState_flagI (l : LoadValues) : (loadState l s).flagI = flagOf l.flagI := rfl
@[simp] theorem loadState_flagD (l : LoadValues) : (loadState l s).flagD = flagOf l.flagD := rfl
@[simp] theorem loadState_flagB (l : LoadValues) : (loadState l s).flagB = flagOf l.flagB := rfl
@[simp] theorem loadState_flagV (l : LoadValues) : (loadState l s).flagV = flagOf l.flagV := rfl
@[simp] theorem loadState_flagN (l : LoadValues) : (loadState l s).flagN = flagOf l.flagN := rfl
@[simp] theorem loadState_cyc (l : LoadValues) : (loadState l s).cyc = s.cyc := rfl
@[simp] theorem loadState_halt (l : LoadValues) : (loadState l s).halt = s.halt := rfl
@[simp] theorem loadState_mem (l : LoadValues) : (loadState l s).mem = s.mem := rfl
@[simp] theorem loadState_params (l : LoadValues) : (loadState l s).params = s.params := rfl

@[simp] theorem setReg_a (r : Reg) (v : Byte) :
    (s.setReg r v).a = if r = .a then v else s.a := by cases r <;> rfl
@[simp] theorem setReg_x (r : Reg) (v : Byte) :
    (s.setReg r v).x = if r = .x then v else s.x := by cases r <;> rfl
@[simp] theorem setReg_y (r : Reg) (v : Byte) :
    (s.setReg r v).y = if r = .y then v else s.y := by cases r <;> rfl
@[simp] theorem setReg_sp (r : Reg) (v : Byte) : (s.setReg r v).sp = s.sp := by cases r <;> rfl
@[simp] theorem setReg_pc (r : Reg) (v : Byte) : (s.setReg r v).pc = s.pc := by cases r <;> rfl
@[simp] theorem setReg_flagC (r : Reg) (v : Byte) : (s.setReg r v).flagC = s.flagC := by cases r <;> rfl
@[simp] theorem setReg_flagZ (r : Reg) (v : Byte) : (s.setReg r v).flagZ = s.flagZ := by cases r <;> rfl
@[simp] theorem setReg_flagI (r : Reg) (v : Byte) : (s.setReg r v).flagI = s.flagI := by cases r <;> rfl
@[simp] theorem setReg_flagD (r : Reg) (v : Byte) : (s.setReg r v).flagD = s.flagD := by cases r <;> rfl
@[simp] theorem setReg_flagB (r : Reg) (v : Byte) : (s.setReg r v).flagB = s.flagB := by cases r <;> rfl
@[simp] theorem setReg_flagV (r : Reg) (v : Byte) : (s.setReg r v).flagV = s.flagV := by cases r <;> rfl
@[simp] theorem setReg_flagN (r : Reg) (v : Byte) : (s.setReg r v).flagN = s.flagN := by cases r <;> rfl
@[simp] theorem setReg_cyc (r : Reg) (v : Byte) : (s.setReg r v).cyc = s.cyc := by cases r <;> rfl
@[simp] theorem setReg_halt (r : Reg) (v : Byte) : (s.setReg r v).halt = s.halt := by cases r <;> rfl
@[simp] theorem setReg_mem (r : Reg) (v : Byte) : (s.setReg r v).mem = s.mem := by cases r <;> rfl
@[simp] theorem setReg_params (r : Reg) (v : Byte) : (s.setReg r v).params = s.params := by cases r <;> rfl

@[simp] theorem memRead_eq (addr : Word) : s.memRead addr = s.mem.read addr := rfl

@[simp] theorem getReg_setReg (r r' : Reg) (v : Byte) :
    (s.setReg r v).getReg r' = if r' = r then v else s.getReg r' := by
  cases r <;> cases r' <;> rfl

end Sys2Proof.Machine
end

