-- ==== Sys2Proof/Laws/Exec.lean ====
section
/-! SUPPORT. What each shared operation can do, said once: the resolver, the two families, the step. -/

namespace Sys2Proof.Machine

/-- The destination of a load or the source of a store. -/
def mnemonicReg : Mnemonic → Reg
  | .lda => .a
  | .ldx => .x
  | .ldy => .y
  | .sta => .a
  | .stx => .x
  | .sty => .y

/-- Whether an operation is a store. -/
def isStore : Mnemonic → Bool
  | .lda => false
  | .ldx => false
  | .ldy => false
  | .sta => true
  | .stx => true
  | .sty => true

/-- A load from memory that answers a next state: the address it read and that state. -/
theorem load_next {r : Reg} {m : AddrMode} {s t : State} (h : load r m s = .next t) :
    ∃ e, effectiveAddress m s = .ok e ∧ t = finishLoad r (s.mem.read e.addr) m.length e.extra s := by
  unfold load at h
  split at h
  · cases h
  · rename_i e he
    cases h
    exact ⟨e, he, rfl⟩

theorem load_of_effectiveAddress {m : AddrMode} {s : State} {e : EffAddr} (r : Reg)
    (h : effectiveAddress m s = .ok e) :
    load r m s = .next (finishLoad r (s.mem.read e.addr) m.length e.extra s) := by
  simp [load, h]

/-- A store that answers a next state: the address it wrote and that state. -/
theorem store_next {r : Reg} {m : AddrMode} {s t : State} (h : store r m s = .next t) :
    ∃ e, effectiveAddress m s = .ok e ∧
      t = ((s.advancePc m.length).charge (1 + e.extra)).memWrite e.addr (s.getReg r) := by
  unfold store at h
  split at h
  · cases h
  · rename_i e he
    cases h
    exact ⟨e, he, rfl⟩

theorem store_of_effectiveAddress {m : AddrMode} {s : State} {e : EffAddr} (r : Reg)
    (h : effectiveAddress m s = .ok e) :
    store r m s = .next (((s.advancePc m.length).charge (1 + e.extra)).memWrite e.addr (s.getReg r)) := by
  simp [store, h]

/-- An indexed address that the resolver answers: the sum modulo 65536 and the cycles. -/
theorem indexedFrom_ok {base : Word} {index : Byte} {cycles : Nat} {s : State} {e : EffAddr}
    (h : indexedFrom base index cycles s = .ok e) :
    e.addr = BitVec.ofNat 16 (base.toNat + index.toNat) ∧
      e.extra = cycles + pageCross base (base.toNat + index.toNat) ∧
      (s.params.eaCarryOut = .wrap ∨ base.toNat + index.toNat ≤ 0xFFFF) := by
  unfold indexedFrom at h
  split at h
  · cases h
  · rename_i w hw
    cases h
    obtain ⟨h1, h2⟩ := carry16_ok hw
    exact ⟨h1, rfl, h2⟩

theorem indexedFrom_settled {base : Word} {index : Byte} {s : State} (cycles : Nat)
    (h : s.params.eaCarryOut = .wrap ∨ base.toNat + index.toNat ≤ 0xFFFF) :
    indexedFrom base index cycles s =
      .ok { addr := BitVec.ofNat 16 (base.toNat + index.toNat)
            extra := cycles + pageCross base (base.toNat + index.toNat) } := by
  simp [indexedFrom, carry16_settled h]

/-- A pointer that the resolver answers: the little-endian value at the zero-page address and the next one. -/
theorem pointerAt_ok {p : Byte} {s : State} {w : Word} (h : pointerAt p s = .ok w) :
    ∃ next, zpNext s.params.zpPointerWrap p = .ok next ∧
      w = le16 (s.mem.read (zext16 p)) (s.mem.read next) := by
  unfold pointerAt at h
  split at h
  · cases h
  · rename_i n hn
    cases h
    exact ⟨n, hn, rfl⟩

theorem pointerAt_of_zpNext {p : Byte} {s : State} {n : Word} (h : zpNext s.params.zpPointerWrap p = .ok n) :
    pointerAt p s = .ok (le16 (s.mem.read (zext16 p)) (s.mem.read n)) := by
  simp [pointerAt, h]

/-- The cycles a mode charges beyond the opcode fetch: 1 to 5. -/
theorem effectiveAddress_extra {m : AddrMode} {s : State} {e : EffAddr} (h : effectiveAddress m s = .ok e) :
    1 ≤ e.extra ∧ e.extra ≤ 5 := by
  have idx : ∀ {base : Word} {index : Byte} {c : Nat}, c = 3 ∨ c = 4 →
      indexedFrom base index c s = .ok e → 1 ≤ e.extra ∧ e.extra ≤ 5 := by
    intro base index c hc he
    obtain ⟨-, h2, -⟩ := indexedFrom_ok he
    have := pageCross_le_one base (base.toNat + index.toNat)
    omega
  cases m with
  | zeroPage zz => cases h; simp
  | zeroPageX zz => cases h; simp
  | zeroPageY zz => cases h; simp
  | absolute addr => cases h; simp
  | absoluteX base => exact idx (.inl rfl) h
  | absoluteY base => exact idx (.inl rfl) h
  | indexedIndirectX zz =>
    simp only [effectiveAddress, indexedIndirect] at h
    split at h
    · cases h
    · cases h; simp
  | indirectIndexedY zz =>
    simp only [effectiveAddress, indirectIndexed] at h
    split at h
    · cases h
    · exact idx (.inr rfl) h

/-- The resolver reads X, Y, memory and the parameters, and nothing else (R80). -/
theorem effectiveAddress_congr {m : AddrMode} {s t : State} (hx : s.x = t.x) (hy : s.y = t.y) (hm : s.mem = t.mem)
    (hp : s.params = t.params) : effectiveAddress m s = effectiveAddress m t := by
  cases m <;>
    simp [effectiveAddress, indexedFrom, indexedIndirect, indirectIndexed, pointerAt, hx, hy, hm, hp]

/-- Every instruction is a load of its immediate byte, a load from memory or a store, at every state: its one
meaning, said once for all 31. -/
theorem exec_cases (i : Instr) :
    (instrAddrMode i = none ∧ isStore i.mnemonic = false ∧ i.length = 2 ∧ ∃ op v, encode i = [op, v] ∧
      ∀ s, exec i s = loadImmediate (mnemonicReg i.mnemonic) v s) ∨
    (∃ m, instrAddrMode i = some m ∧ isStore i.mnemonic = false ∧ m.length = i.length ∧
      ∀ s, exec i s = load (mnemonicReg i.mnemonic) m s) ∨
    (∃ m, instrAddrMode i = some m ∧ isStore i.mnemonic = true ∧ m.length = i.length ∧
      ∀ s, exec i s = store (mnemonicReg i.mnemonic) m s) := by
  cases i <;>
    first
    | exact .inl ⟨rfl, rfl, rfl, _, _, rfl, fun _ => rfl⟩
    | exact .inr (.inl ⟨_, rfl, rfl, rfl, fun _ => rfl⟩)
    | exact .inr (.inr ⟨_, rfl, rfl, rfl, fun _ => rfl⟩)

/-- What an instruction that answers a next state has done: a load of a byte `v`, which is its immediate operand or the
byte at its effective address, or a store at its effective address. -/
theorem exec_next {i : Instr} {s t : State} (h : exec i s = .next t) :
    (∃ v extra, isStore i.mnemonic = false ∧ 1 ≤ extra ∧ extra ≤ 5 ∧
      t = finishLoad (mnemonicReg i.mnemonic) v i.length extra s ∧
      ((∃ op, instrAddrMode i = none ∧ encode i = [op, v]) ∨
        ∃ m e, instrAddrMode i = some m ∧ effectiveAddress m s = .ok e ∧ v = s.mem.read e.addr)) ∨
    (∃ m e, instrAddrMode i = some m ∧ isStore i.mnemonic = true ∧ effectiveAddress m s = .ok e ∧
      t = ((s.advancePc i.length).charge (1 + e.extra)).memWrite e.addr (s.getReg (mnemonicReg i.mnemonic))) := by
  rcases exec_cases i with ⟨hn, hst, hl, op, v, henc, he⟩ | ⟨m, hm, hst, hl, he⟩ | ⟨m, hm, hst, hl, he⟩
  · rw [he] at h
    cases h
    exact .inl ⟨v, 1, hst, by omega, by omega, by rw [hl], .inl ⟨op, hn, henc⟩⟩
  · rw [he] at h
    obtain ⟨e, hea, rfl⟩ := load_next h
    obtain ⟨h1, h2⟩ := effectiveAddress_extra hea
    exact .inl ⟨_, _, hst, h1, h2, by rw [hl], .inr ⟨m, e, hm, hea, rfl⟩⟩
  · rw [he] at h
    obtain ⟨e, hea, rfl⟩ := store_next h
    exact .inr ⟨m, e, hm, hst, hea, by rw [hl]⟩

/-- The fetch at PC reads an instruction back from its encoding. -/
theorem fetchInstr_of_encode (i : Instr) (s : State) (h : s.mem.bytesFrom s.pc (encode i).length = encode i) :
    fetchInstr s = some i := by
  cases i <;> simp [encode, Memory.bytesFrom, BitVec.add_assoc] at h <;>
    simp [fetchInstr, opcodeAtPc, decodeOpcode, assembleOperand, h]

/-- A step of a running machine that answers a next state: an instruction's effect, or UnrecognizedOpcode taken. -/
theorem step_cases {s t : State} (h : step s = .next t) :
    (s.halt ≠ .running ∧ t = s) ∨
    (s.halt = .running ∧ ∃ i, fetchInstr s = some i ∧ exec i s = .next t) ∨
    (s.halt = .running ∧ fetchInstr s = none ∧ t = s.takeUnrecognizedOpcode (opcodeAtPc s)) := by
  unfold step at h
  split at h
  · rename_i hh
    cases h
    exact .inl ⟨by simp [hh], rfl⟩
  · rename_i hh
    split at h
    · exact .inr (.inl ⟨hh, _, ‹_›, h⟩)
    · cases h
      exact .inr (.inr ⟨hh, ‹_›, rfl⟩)

end Sys2Proof.Machine
end

