-- ==== Sys2Proof/Laws/Engine.lean ====
section
/-! SUPPORT. The engine's loop: when it stops, that its fuel never matters, and its induction, packaged once. -/

namespace Sys2Proof.Machine

/-- What a step of a running machine charges: 1 to 6 cycles, and 1 when it halts. -/
theorem step_cyc_running {s t : State} (hr : s.halt = .running) (h : step s = .next t) :
    s.cyc + 1 ≤ t.cyc ∧ t.cyc ≤ s.cyc + 6 ∧ (t.halt ≠ .running → t.cyc = s.cyc + 1) := by
  rcases step_cases h with ⟨h1, -⟩ | ⟨-, i, -, he⟩ | ⟨-, -, rfl⟩
  · exact absurd hr h1
  · rcases exec_next he with ⟨v, extra, -, h1, h2, rfl, -⟩ | ⟨m, e, -, -, h1, rfl⟩
    · simp [finishLoad, hr]; omega
    · have := effectiveAddress_extra h1; simp [hr]; omega
  · simp

theorem executeLoop_halted (s : State) (h : s.halt ≠ .running) (fuel : Nat) (budget : Int) :
    executeLoop fuel budget s = .next s := by
  cases fuel <;> simp [executeLoop, h]

theorem executeLoop_nonpos (s : State) (fuel : Nat) (budget : Int) (h : budget ≤ 0) :
    executeLoop fuel budget s = .next s := by
  cases fuel <;> simp [executeLoop, h]

/-- Any two amounts of fuel that cover the budget give the same result. -/
theorem executeLoop_fuel (f g : Nat) (budget : Int) (s : State) (hf : budget.toNat ≤ f) (hg : budget.toNat ≤ g) :
    executeLoop f budget s = executeLoop g budget s := by
  induction f generalizing g budget s with
  | zero => rw [executeLoop_nonpos _ _ _ (by omega), executeLoop_nonpos _ _ _ (by omega)]
  | succ f ih =>
    by_cases hb : 0 < budget
    · obtain ⟨k, rfl⟩ : ∃ k, g = k + 1 := ⟨g - 1, by omega⟩
      simp only [executeLoop]
      split
      · rename_i hc
        split
        · rename_i t ht
          have := step_cyc_running hc.2 ht
          exact ih _ _ _ (by omega) (by omega)
        · rfl
        · rfl
      · rfl
    · rw [executeLoop_nonpos _ _ _ (by omega), executeLoop_nonpos _ _ _ (by omega)]

/-- A reflexive and transitive relation that every step meets relates the start of an `execute` call to its end. -/
theorem executeLoop_preserves (P : State → State → Prop) (hrefl : ∀ s, P s s)
    (htrans : ∀ s t u, P s t → P t u → P s u) (hstep : ∀ s t, step s = .next t → P s t)
    (fuel : Nat) (budget : Int) (s t : State) (h : executeLoop fuel budget s = .next t) : P s t := by
  induction fuel generalizing budget s with
  | zero => cases h; exact hrefl _
  | succ fuel ih =>
    simp only [executeLoop] at h
    split at h
    · split at h
      · rename_i u hu
        exact htrans _ _ _ (hstep _ _ hu) (ih _ _ h)
      · cases h
      · cases h
    · cases h
      exact hrefl _

end Sys2Proof.Machine
end

