-- ==== Sys2Proof/Laws/PerInstr.lean ====
section
/-! SUPPORT. Facts about every instruction as syntax, one lemma per constructor. -/

namespace Sys2Proof.Laws

/-- The opcode table has the instruction's row: its opcode byte with its operation, mode and base cycles, and
the row is well formed (spec 30_encoding.md R64, 40_addressing_modes.md R84, R94). -/
def DescriptorInTable.Statement (i : Instr) : Prop :=
  i.wf = true ∧ ∃ op rest, encode i = op :: rest ∧
    opcodeRow op = some { opcode := op, descriptor := i.descriptor, pageCrossExtra := i.mode.pageCrossExtra }

/-- The instruction's bytes are as many as its mode's length, 2 or 3 (R60, R61). -/
def EncodingLength.Statement (i : Instr) : Prop :=
  (encode i).length = i.length ∧ 2 ≤ i.length ∧ i.length ≤ 3

theorem DescriptorInTable.ldaImm (v : Byte) :
    DescriptorInTable.Statement (.ldaImm v) := ⟨rfl, _, _, rfl, rfl⟩
theorem DescriptorInTable.ldaZp (zz : Byte) :
    DescriptorInTable.Statement (.ldaZp zz) := ⟨rfl, _, _, rfl, rfl⟩
theorem DescriptorInTable.ldaZpX (zz : Byte) :
    DescriptorInTable.Statement (.ldaZpX zz) := ⟨rfl, _, _, rfl, rfl⟩
theorem DescriptorInTable.ldaAbs (addr : Word) :
    DescriptorInTable.Statement (.ldaAbs addr) := ⟨rfl, _, _, rfl, rfl⟩
theorem DescriptorInTable.ldaAbsX (base : Word) :
    DescriptorInTable.Statement (.ldaAbsX base) := ⟨rfl, _, _, rfl, rfl⟩
theorem DescriptorInTable.ldaAbsY (base : Word) :
    DescriptorInTable.Statement (.ldaAbsY base) := ⟨rfl, _, _, rfl, rfl⟩
theorem DescriptorInTable.ldaIndX (zz : Byte) :
    DescriptorInTable.Statement (.ldaIndX zz) := ⟨rfl, _, _, rfl, rfl⟩
theorem DescriptorInTable.ldaIndY (zz : Byte) :
    DescriptorInTable.Statement (.ldaIndY zz) := ⟨rfl, _, _, rfl, rfl⟩
theorem DescriptorInTable.ldxImm (v : Byte) :
    DescriptorInTable.Statement (.ldxImm v) := ⟨rfl, _, _, rfl, rfl⟩
theorem DescriptorInTable.ldxZp (zz : Byte) :
    DescriptorInTable.Statement (.ldxZp zz) := ⟨rfl, _, _, rfl, rfl⟩
theorem DescriptorInTable.ldxZpY (zz : Byte) :
    DescriptorInTable.Statement (.ldxZpY zz) := ⟨rfl, _, _, rfl, rfl⟩
theorem DescriptorInTable.ldxAbs (addr : Word) :
    DescriptorInTable.Statement (.ldxAbs addr) := ⟨rfl, _, _, rfl, rfl⟩
theorem DescriptorInTable.ldxAbsY (base : Word) :
    DescriptorInTable.Statement (.ldxAbsY base) := ⟨rfl, _, _, rfl, rfl⟩
theorem DescriptorInTable.ldyImm (v : Byte) :
    DescriptorInTable.Statement (.ldyImm v) := ⟨rfl, _, _, rfl, rfl⟩
theorem DescriptorInTable.ldyZp (zz : Byte) :
    DescriptorInTable.Statement (.ldyZp zz) := ⟨rfl, _, _, rfl, rfl⟩
theorem DescriptorInTable.ldyZpX (zz : Byte) :
    DescriptorInTable.Statement (.ldyZpX zz) := ⟨rfl, _, _, rfl, rfl⟩
theorem DescriptorInTable.ldyAbs (addr : Word) :
    DescriptorInTable.Statement (.ldyAbs addr) := ⟨rfl, _, _, rfl, rfl⟩
theorem DescriptorInTable.ldyAbsX (base : Word) :
    DescriptorInTable.Statement (.ldyAbsX base) := ⟨rfl, _, _, rfl, rfl⟩
theorem DescriptorInTable.staZp (zz : Byte) :
    DescriptorInTable.Statement (.staZp zz) := ⟨rfl, _, _, rfl, rfl⟩
theorem DescriptorInTable.staZpX (zz : Byte) :
    DescriptorInTable.Statement (.staZpX zz) := ⟨rfl, _, _, rfl, rfl⟩
theorem DescriptorInTable.staAbs (addr : Word) :
    DescriptorInTable.Statement (.staAbs addr) := ⟨rfl, _, _, rfl, rfl⟩
theorem DescriptorInTable.staAbsX (base : Word) :
    DescriptorInTable.Statement (.staAbsX base) := ⟨rfl, _, _, rfl, rfl⟩
theorem DescriptorInTable.staAbsY (base : Word) :
    DescriptorInTable.Statement (.staAbsY base) := ⟨rfl, _, _, rfl, rfl⟩
theorem DescriptorInTable.staIndX (zz : Byte) :
    DescriptorInTable.Statement (.staIndX zz) := ⟨rfl, _, _, rfl, rfl⟩
theorem DescriptorInTable.staIndY (zz : Byte) :
    DescriptorInTable.Statement (.staIndY zz) := ⟨rfl, _, _, rfl, rfl⟩
theorem DescriptorInTable.stxZp (zz : Byte) :
    DescriptorInTable.Statement (.stxZp zz) := ⟨rfl, _, _, rfl, rfl⟩
theorem DescriptorInTable.stxZpY (zz : Byte) :
    DescriptorInTable.Statement (.stxZpY zz) := ⟨rfl, _, _, rfl, rfl⟩
theorem DescriptorInTable.stxAbs (addr : Word) :
    DescriptorInTable.Statement (.stxAbs addr) := ⟨rfl, _, _, rfl, rfl⟩
theorem DescriptorInTable.styZp (zz : Byte) :
    DescriptorInTable.Statement (.styZp zz) := ⟨rfl, _, _, rfl, rfl⟩
theorem DescriptorInTable.styZpX (zz : Byte) :
    DescriptorInTable.Statement (.styZpX zz) := ⟨rfl, _, _, rfl, rfl⟩
theorem DescriptorInTable.styAbs (addr : Word) :
    DescriptorInTable.Statement (.styAbs addr) := ⟨rfl, _, _, rfl, rfl⟩

theorem EncodingLength.ldaImm (v : Byte) :
    EncodingLength.Statement (.ldaImm v) := ⟨rfl, Nat.le_of_ble_eq_true rfl, Nat.le_of_ble_eq_true rfl⟩
theorem EncodingLength.ldaZp (zz : Byte) :
    EncodingLength.Statement (.ldaZp zz) := ⟨rfl, Nat.le_of_ble_eq_true rfl, Nat.le_of_ble_eq_true rfl⟩
theorem EncodingLength.ldaZpX (zz : Byte) :
    EncodingLength.Statement (.ldaZpX zz) := ⟨rfl, Nat.le_of_ble_eq_true rfl, Nat.le_of_ble_eq_true rfl⟩
theorem EncodingLength.ldaAbs (addr : Word) :
    EncodingLength.Statement (.ldaAbs addr) := ⟨rfl, Nat.le_of_ble_eq_true rfl, Nat.le_of_ble_eq_true rfl⟩
theorem EncodingLength.ldaAbsX (base : Word) :
    EncodingLength.Statement (.ldaAbsX base) := ⟨rfl, Nat.le_of_ble_eq_true rfl, Nat.le_of_ble_eq_true rfl⟩
theorem EncodingLength.ldaAbsY (base : Word) :
    EncodingLength.Statement (.ldaAbsY base) := ⟨rfl, Nat.le_of_ble_eq_true rfl, Nat.le_of_ble_eq_true rfl⟩
theorem EncodingLength.ldaIndX (zz : Byte) :
    EncodingLength.Statement (.ldaIndX zz) := ⟨rfl, Nat.le_of_ble_eq_true rfl, Nat.le_of_ble_eq_true rfl⟩
theorem EncodingLength.ldaIndY (zz : Byte) :
    EncodingLength.Statement (.ldaIndY zz) := ⟨rfl, Nat.le_of_ble_eq_true rfl, Nat.le_of_ble_eq_true rfl⟩
theorem EncodingLength.ldxImm (v : Byte) :
    EncodingLength.Statement (.ldxImm v) := ⟨rfl, Nat.le_of_ble_eq_true rfl, Nat.le_of_ble_eq_true rfl⟩
theorem EncodingLength.ldxZp (zz : Byte) :
    EncodingLength.Statement (.ldxZp zz) := ⟨rfl, Nat.le_of_ble_eq_true rfl, Nat.le_of_ble_eq_true rfl⟩
theorem EncodingLength.ldxZpY (zz : Byte) :
    EncodingLength.Statement (.ldxZpY zz) := ⟨rfl, Nat.le_of_ble_eq_true rfl, Nat.le_of_ble_eq_true rfl⟩
theorem EncodingLength.ldxAbs (addr : Word) :
    EncodingLength.Statement (.ldxAbs addr) := ⟨rfl, Nat.le_of_ble_eq_true rfl, Nat.le_of_ble_eq_true rfl⟩
theorem EncodingLength.ldxAbsY (base : Word) :
    EncodingLength.Statement (.ldxAbsY base) := ⟨rfl, Nat.le_of_ble_eq_true rfl, Nat.le_of_ble_eq_true rfl⟩
theorem EncodingLength.ldyImm (v : Byte) :
    EncodingLength.Statement (.ldyImm v) := ⟨rfl, Nat.le_of_ble_eq_true rfl, Nat.le_of_ble_eq_true rfl⟩
theorem EncodingLength.ldyZp (zz : Byte) :
    EncodingLength.Statement (.ldyZp zz) := ⟨rfl, Nat.le_of_ble_eq_true rfl, Nat.le_of_ble_eq_true rfl⟩
theorem EncodingLength.ldyZpX (zz : Byte) :
    EncodingLength.Statement (.ldyZpX zz) := ⟨rfl, Nat.le_of_ble_eq_true rfl, Nat.le_of_ble_eq_true rfl⟩
theorem EncodingLength.ldyAbs (addr : Word) :
    EncodingLength.Statement (.ldyAbs addr) := ⟨rfl, Nat.le_of_ble_eq_true rfl, Nat.le_of_ble_eq_true rfl⟩
theorem EncodingLength.ldyAbsX (base : Word) :
    EncodingLength.Statement (.ldyAbsX base) := ⟨rfl, Nat.le_of_ble_eq_true rfl, Nat.le_of_ble_eq_true rfl⟩
theorem EncodingLength.staZp (zz : Byte) :
    EncodingLength.Statement (.staZp zz) := ⟨rfl, Nat.le_of_ble_eq_true rfl, Nat.le_of_ble_eq_true rfl⟩
theorem EncodingLength.staZpX (zz : Byte) :
    EncodingLength.Statement (.staZpX zz) := ⟨rfl, Nat.le_of_ble_eq_true rfl, Nat.le_of_ble_eq_true rfl⟩
theorem EncodingLength.staAbs (addr : Word) :
    EncodingLength.Statement (.staAbs addr) := ⟨rfl, Nat.le_of_ble_eq_true rfl, Nat.le_of_ble_eq_true rfl⟩
theorem EncodingLength.staAbsX (base : Word) :
    EncodingLength.Statement (.staAbsX base) := ⟨rfl, Nat.le_of_ble_eq_true rfl, Nat.le_of_ble_eq_true rfl⟩
theorem EncodingLength.staAbsY (base : Word) :
    EncodingLength.Statement (.staAbsY base) := ⟨rfl, Nat.le_of_ble_eq_true rfl, Nat.le_of_ble_eq_true rfl⟩
theorem EncodingLength.staIndX (zz : Byte) :
    EncodingLength.Statement (.staIndX zz) := ⟨rfl, Nat.le_of_ble_eq_true rfl, Nat.le_of_ble_eq_true rfl⟩
theorem EncodingLength.staIndY (zz : Byte) :
    EncodingLength.Statement (.staIndY zz) := ⟨rfl, Nat.le_of_ble_eq_true rfl, Nat.le_of_ble_eq_true rfl⟩
theorem EncodingLength.stxZp (zz : Byte) :
    EncodingLength.Statement (.stxZp zz) := ⟨rfl, Nat.le_of_ble_eq_true rfl, Nat.le_of_ble_eq_true rfl⟩
theorem EncodingLength.stxZpY (zz : Byte) :
    EncodingLength.Statement (.stxZpY zz) := ⟨rfl, Nat.le_of_ble_eq_true rfl, Nat.le_of_ble_eq_true rfl⟩
theorem EncodingLength.stxAbs (addr : Word) :
    EncodingLength.Statement (.stxAbs addr) := ⟨rfl, Nat.le_of_ble_eq_true rfl, Nat.le_of_ble_eq_true rfl⟩
theorem EncodingLength.styZp (zz : Byte) :
    EncodingLength.Statement (.styZp zz) := ⟨rfl, Nat.le_of_ble_eq_true rfl, Nat.le_of_ble_eq_true rfl⟩
theorem EncodingLength.styZpX (zz : Byte) :
    EncodingLength.Statement (.styZpX zz) := ⟨rfl, Nat.le_of_ble_eq_true rfl, Nat.le_of_ble_eq_true rfl⟩
theorem EncodingLength.styAbs (addr : Word) :
    EncodingLength.Statement (.styAbs addr) := ⟨rfl, Nat.le_of_ble_eq_true rfl, Nat.le_of_ble_eq_true rfl⟩

end Sys2Proof.Laws
end

