-- ==== Sys2Proof/Machine/Assembly.lean ====
section
/-! DEFINITION. The assembler syntax (spec 30_encoding.md R70, R71), for listings; no meaning depends on it. -/

namespace Sys2Proof.Machine

/-- A hexadecimal digit. -/
def hexDigit (n : Nat) : Char :=
  if n < 10 then Char.ofNat (48 + n) else Char.ofNat (55 + n)

/-- `$hh`: a byte. -/
def hexByte (b : Byte) : List Char := ['$', hexDigit (b.toNat / 16), hexDigit (b.toNat % 16)]

/-- `$hhhh`: a word. -/
def hexWord (w : Word) : List Char :=
  ['$', hexDigit (w.toNat / 4096), hexDigit (w.toNat / 256 % 16), hexDigit (w.toNat / 16 % 16),
    hexDigit (w.toNat % 16)]

/-- The mnemonics of R64. -/
def mnemonicText : Mnemonic → List Char
  | .lda => ['L', 'D', 'A']
  | .ldx => ['L', 'D', 'X']
  | .ldy => ['L', 'D', 'Y']
  | .sta => ['S', 'T', 'A']
  | .stx => ['S', 'T', 'X']
  | .sty => ['S', 'T', 'Y']

/-- The operand form of each memory mode (R70). -/
def addrModeText : AddrMode → List Char
  | .zeroPage zz => hexByte zz
  | .zeroPageX zz => hexByte zz ++ [',', 'X']
  | .zeroPageY zz => hexByte zz ++ [',', 'Y']
  | .absolute addr => hexWord addr
  | .absoluteX base => hexWord base ++ [',', 'X']
  | .absoluteY base => hexWord base ++ [',', 'Y']
  | .indexedIndirectX zz => ['('] ++ hexByte zz ++ [',', 'X', ')']
  | .indirectIndexedY zz => ['('] ++ hexByte zz ++ [')', ',', 'Y']

/-- The operand form of an instruction (R70): `#$hh` for mode Immediate. -/
def operandText (i : Instr) : List Char :=
  match instrAddrMode i, encode i with
  | some m, _ => addrModeText m
  | none, [_, v] => '#' :: hexByte v
  | none, _ => []

/-- An instruction in assembler syntax (R70). -/
def asmText (i : Instr) : List Char := mnemonicText i.mnemonic ++ [' '] ++ operandText i

/-- An unrecognized byte in a listing: `.byte $hh` (R71). -/
def byteText (op : Byte) : List Char := ['.', 'b', 'y', 't', 'e', ' '] ++ hexByte op

end Sys2Proof.Machine
end

