-- ==== Sys2Proof/Tests/Slice0.lean ====
section
/-! SUPPORT. Tests, each one step or one operation on a small state. Expected results are the spec's own: the encodings of
30_encoding.md R64, and the vectors S, VL, VS, VE, VX, VR of 95_test_vectors.md, named where they are used. Then one
witness for each obligation's hypotheses. -/

namespace Sys2Proof.Tests

open Sys2Proof Sys2Proof.Machine

/-- The start state of the vectors: after `reset()`, with bytes written and PC set. -/
def startAt (pc : Word) (code : List Byte) (cells : List (Word × Byte)) : State :=
  { State.reset with
    pc := pc
    mem := cells.foldl (fun m c => m.write c.1 c.2) (Memory.writeBytes [] pc code) }

/-- The code at 0x0200, as in the derived vectors. -/
def start (code : List Byte) (cells : List (Word × Byte)) : State := startAt 0x0200 code cells

/-- Whether an outcome is a next state that meets a check. -/
def nextMeets (o : Host.Outcome State Fault Refusal) (check : State → Bool) : Bool :=
  match o with
  | .next t => check t
  | .fault _ => false
  | .refused _ => false

/-- Whether an outcome is this refusal. -/
def refusesWith (o : Host.Outcome State Fault Refusal) (reason : Refusal) : Bool :=
  match o with
  | .next _ => false
  | .fault _ => false
  | .refused r => r == reason

/-- A load's result: the register, Z, N, PC and cycles after one step from `start`. -/
def loads (s : State) (reg : Reg) (v : Byte) (z n : Bool) (pc : Word) (cycles : Nat) : Bool :=
  nextMeets (step s) fun t =>
    t.getReg reg == v && t.flagZ == z && t.flagN == n && t.pc == pc && t.cyc == cycles && t.mem == s.mem

/-- A store's result: the byte, PC and cycles after one step, with Z and N unchanged. -/
def stores (s : State) (addr : Word) (v : Byte) (pc : Word) (cycles : Nat) : Bool :=
  nextMeets (step s) fun t =>
    t.mem == s.mem.write addr v && t.mem.read addr == v && t.flagZ == s.flagZ && t.flagN == s.flagN &&
      t.pc == pc && t.cyc == cycles

/-! Every constructor's encoding (R64), written out byte by byte. -/


theorem test_decode_lda :
    decode [0xA9, 0x42] = .ok (.ldaImm 0x42, []) ∧
    decode [0xA5, 0x10] = .ok (.ldaZp 0x10, []) ∧
    decode [0xB5, 0x80] = .ok (.ldaZpX 0x80, []) ∧
    decode [0xAD, 0x34, 0x12] = .ok (.ldaAbs 0x1234, []) ∧
    decode [0xBD, 0x02, 0x44] = .ok (.ldaAbsX 0x4402, []) ∧
    decode [0xB9, 0xF0, 0x12] = .ok (.ldaAbsY 0x12F0, []) ∧
    decode [0xA1, 0x20] = .ok (.ldaIndX 0x20, []) ∧
    decode [0xB1, 0x40] = .ok (.ldaIndY 0x40, []) := by
  refine ⟨?_, ?_, ?_, ?_, ?_, ?_, ?_, ?_⟩ <;> rfl

theorem test_decode_ldx :
    decode [0xA2, 0xFF] = .ok (.ldxImm 0xFF, []) ∧
    decode [0xA6, 0x00] = .ok (.ldxZp 0x00, []) ∧
    decode [0xB6, 0xF0] = .ok (.ldxZpY 0xF0, []) ∧
    decode [0xAE, 0x00, 0x02] = .ok (.ldxAbs 0x0200, []) ∧
    decode [0xBE, 0xFF, 0x00] = .ok (.ldxAbsY 0x00FF, []) := by
  refine ⟨?_, ?_, ?_, ?_, ?_⟩ <;> rfl

theorem test_decode_ldy :
    decode [0xA0, 0x7F] = .ok (.ldyImm 0x7F, []) ∧
    decode [0xA4, 0xFF] = .ok (.ldyZp 0xFF, []) ∧
    decode [0xB4, 0x10] = .ok (.ldyZpX 0x10, []) ∧
    decode [0xAC, 0xFF, 0xFE] = .ok (.ldyAbs 0xFEFF, []) ∧
    decode [0xBC, 0xF0, 0xFF] = .ok (.ldyAbsX 0xFFF0, []) := by
  refine ⟨?_, ?_, ?_, ?_, ?_⟩ <;> rfl

theorem test_decode_sta :
    decode [0x85, 0x02] = .ok (.staZp 0x02, []) ∧
    decode [0x95, 0xF0] = .ok (.staZpX 0xF0, []) ∧
    decode [0x8D, 0x00, 0x30] = .ok (.staAbs 0x3000, []) ∧
    decode [0x9D, 0xFF, 0x30] = .ok (.staAbsX 0x30FF, []) ∧
    decode [0x99, 0x10, 0x20] = .ok (.staAbsY 0x2010, []) ∧
    decode [0x81, 0x20] = .ok (.staIndX 0x20, []) ∧
    decode [0x91, 0x40] = .ok (.staIndY 0x40, []) := by
  refine ⟨?_, ?_, ?_, ?_, ?_, ?_, ?_⟩ <;> rfl

theorem test_decode_stx :
    decode [0x86, 0x10] = .ok (.stxZp 0x10, []) ∧
    decode [0x96, 0xFF] = .ok (.stxZpY 0xFF, []) ∧
    decode [0x8E, 0x00, 0x04] = .ok (.stxAbs 0x0400, []) := by
  refine ⟨?_, ?_, ?_⟩ <;> rfl

theorem test_decode_sty :
    decode [0x84, 0x80] = .ok (.styZp 0x80, []) ∧
    decode [0x94, 0x80] = .ok (.styZpX 0x80, []) ∧
    decode [0x8C, 0x34, 0x12] = .ok (.styAbs 0x1234, []) := by
  refine ⟨?_, ?_, ?_⟩ <;> rfl

theorem test_unrecognized_bytes :
    [0x00, 0x40, 0x69, 0x89, 0x9C, 0x9E, 0xEA, 0xFF].all
      (fun op => decode [op, 0x00, 0x00] == .error (.unrecognizedOpcode op)) = true := by decide

set_option maxRecDepth 20000 in
/-- R7, R67: 31 recognized opcode bytes and 225 unrecognized ones. -/
theorem test_225_unrecognized :
    ((List.range 256).filter (fun op => (decodeOpcode (BitVec.ofNat 8 op)).isNone)).length = 225 := rfl

theorem test_table_rows_well_formed : opcodeTable.all OpcodeRow.wf = true ∧ opcodeTable.length = 31 := by decide

/-- No two rows of the table have one opcode byte, so the lookup is unambiguous (R63). -/
theorem test_table_no_overlap : opcodeTable.Pairwise (fun r q => r.opcode ≠ q.opcode) := by decide

/-! WellFormed: an ill-formed term for each check, refused. -/

theorem test_wf_refuses_store_immediate :
    Descriptor.wf { mnemonic := .sta, mode := .immediate, baseCycles := 2 } = false := by decide

theorem test_wf_refuses_ldx_indexed_by_x :
    Descriptor.wf { mnemonic := .ldx, mode := .zeroPageIndexedX, baseCycles := 4 } = false := by decide

theorem test_wf_refuses_wrong_base_cycles :
    Descriptor.wf { mnemonic := .sta, mode := .absoluteIndexedX, baseCycles := 5 } = false := by decide

theorem test_wf_refuses_page_cross_on_zero_page :
    OpcodeRow.wf { opcode := 0xB5, pageCrossExtra := true,
                   descriptor := { mnemonic := .lda, mode := .zeroPageIndexedX, baseCycles := 4 } } = false := by decide

theorem test_wf_accepts_instr : (Instr.staIndY 0x40).wf = true := by decide

/-! Loads (vectors S1 to S4, VL1 to VL24). -/

/-- VL1. -/
theorem test_lda_imm_zero :
    loads { start [0xA9, 0x00] [] with a := 0x55 } .a 0x00 true false 0x0202 2 = true := by decide

/-- VL3. -/
theorem test_lda_imm_clears_flags :
    loads { start [0xA9, 0x7F] [] with flagZ := true, flagN := true } .a 0x7F false false 0x0202 2 = true := by decide

/-- VL4. -/
theorem test_lda_zp :
    loads (start [0xA5, 0x10] [(0x0010, 0x80)]) .a 0x80 false true 0x0202 3 = true := by decide

/-- VL5. -/
theorem test_lda_zpx_wraps :
    loads { start [0xB5, 0xFF] [(0x0001, 0x00)] with x := 0x02, a := 0x09 } .a 0x00 true false 0x0202 4 = true := by decide

/-- VL6. -/
theorem test_lda_abs :
    loads (start [0xAD, 0x34, 0x12] [(0x1234, 0x7F)]) .a 0x7F false false 0x0203 4 = true := by decide

/-- VE7: the high operand byte is at 0x0000. -/
theorem test_lda_abs_wraps_pc :
    loads (startAt 0xFFFE [0xAD, 0x34] [(0x0000, 0x12), (0x1234, 0x56)]) .a 0x56 false false 0x0001 4 = true := by decide

/-- VL7. -/
theorem test_lda_absx_no_crossing :
    loads { start [0xBD, 0x00, 0x44] [(0x4401, 0x11)] with x := 0x01 } .a 0x11 false false 0x0203 4 = true := by decide

/-- VL9. -/
theorem test_lda_absx_carry :
    loads { start [0xBD, 0xF0, 0xFF] [(0x0010, 0x44)] with x := 0x20 } .a 0x44 false false 0x0203 5 = true := by decide

/-- VL10. -/
theorem test_lda_absy_crossing :
    loads { start [0xB9, 0xF0, 0x12] [(0x1300, 0xFF)] with y := 0x10 } .a 0xFF false true 0x0203 5 = true := by decide

/-- VL11. -/
theorem test_lda_indx_pointer_at_ff :
    loads (start [0xA1, 0xFF] [(0x00FF, 0x00), (0x0000, 0x30), (0x3000, 0x5A)]) .a 0x5A false false 0x0202 6 = true := by decide

/-- VL12. -/
theorem test_lda_indx_wraps :
    loads { start [0xA1, 0x80] [(0x0010, 0x00), (0x0011, 0x20), (0x2000, 0x01)] with x := 0x90 } .a 0x01 false false 0x0202 6 = true := by decide

/-- VL13. -/
theorem test_lda_indy_crossing :
    loads { start [0xB1, 0x40] [(0x0040, 0xFE), (0x0041, 0x20), (0x2103, 0x7F)] with y := 0x05 } .a 0x7F false false 0x0202 6 = true := by decide

/-- VL14. -/
theorem test_lda_indy_no_crossing :
    loads { start [0xB1, 0x40] [(0x0040, 0x00), (0x0041, 0x20), (0x2005, 0x80)] with y := 0x05 } .a 0x80 false true 0x0202 5 = true := by decide

/-- VL15. -/
theorem test_ldx_imm :
    loads { start [0xA2, 0x00] [] with x := 0x12 } .x 0x00 true false 0x0202 2 = true := by decide

/-- VL16. -/
theorem test_ldx_zp :
    loads (start [0xA6, 0x10] [(0x0010, 0xFF)]) .x 0xFF false true 0x0202 3 = true := by decide

/-- VL17. -/
theorem test_ldx_zpy_wraps :
    loads { start [0xB6, 0xF0] [(0x0010, 0x33)] with y := 0x20 } .x 0x33 false false 0x0202 4 = true := by decide

/-- VL18. -/
theorem test_ldx_abs :
    loads (start [0xAE, 0x00, 0x01] [(0x0100, 0x01)]) .x 0x01 false false 0x0203 4 = true := by decide

/-- VL19. -/
theorem test_ldx_absy_leaves_zero_page :
    loads { start [0xBE, 0xFF, 0x00] [(0x0100, 0x80)] with y := 0x01 } .x 0x80 false true 0x0203 5 = true := by decide

/-- VL20. -/
theorem test_ldy_imm :
    loads (start [0xA0, 0x80] []) .y 0x80 false true 0x0202 2 = true := by decide

/-- VL21. -/
theorem test_ldy_zp :
    loads { start [0xA4, 0xFF] [(0x00FF, 0x00)] with y := 0x03 } .y 0x00 true false 0x0202 3 = true := by decide

/-- VL22. -/
theorem test_ldy_zpx_wraps :
    loads { start [0xB4, 0xFF] [(0x0000, 0x7F)] with x := 0x01 } .y 0x7F false false 0x0202 4 = true := by decide

/-- VL23. -/
theorem test_ldy_abs :
    loads { start [0xAC, 0xFF, 0xFF] [(0xFFFF, 0x00)] with y := 0x09 } .y 0x00 true false 0x0203 4 = true := by decide

/-- VL24. -/
theorem test_ldy_absx_carry :
    loads { start [0xBC, 0xF0, 0xFF] [(0x0010, 0x44)] with x := 0x20 } .y 0x44 false false 0x0203 5 = true := by decide

/-! The parameters (vectors VL9f, VL11l, VL14f, VL14g). -/

/-- VL9f. -/
theorem test_carry_fault_refuses :
    refusesWith (step { start [0xBD, 0xF0, 0xFF] [] with x := 0x20, params := ⟨.fault, .wrap⟩ }) .eaCarryOut = true := by
  decide

/-- VL11l. -/
theorem test_pointer_linear :
    loads { start [0xA1, 0xFF] [(0x00FF, 0x00), (0x0100, 0x40), (0x4000, 0x66)] with params := ⟨.wrap, .linear⟩ }
      .a 0x66 false false 0x0202 6 = true := by decide

/-- VL14f. -/
theorem test_pointer_fault_refuses :
    refusesWith (step { start [0xB1, 0xFF] [] with params := ⟨.wrap, .fault⟩ }) .zpPointerAtFF = true := by decide

/-- VL14g. -/
theorem test_pointer_below_ff_under_fault :
    loads { start [0xB1, 0xFE] [(0x00FF, 0x40), (0x4000, 0x01)] with params := ⟨.wrap, .fault⟩ }
      .a 0x01 false false 0x0202 5 = true := by decide

/-! Stores (vectors VS1 to VS16). -/

/-- VS1. -/
theorem test_sta_zp_keeps_flags :
    stores { start [0x85, 0x10] [(0x0010, 0x55)] with a := 0x00, flagN := true } 0x0010 0x00 0x0202 3 = true := by decide

/-- VS2. -/
theorem test_sta_zpx_wraps :
    stores { start [0x95, 0xF0] [] with x := 0x20, a := 0x11 } 0x0010 0x11 0x0202 4 = true := by decide

/-- VS3. -/
theorem test_sta_abs :
    stores { start [0x8D, 0x00, 0x30] [] with a := 0x80 } 0x3000 0x80 0x0203 4 = true := by decide

/-- VS4. -/
theorem test_sta_absx_crossing :
    stores { start [0x9D, 0xFF, 0x30] [] with x := 0x01, a := 0x5A } 0x3100 0x5A 0x0203 5 = true := by decide

/-- VS5: 4 cycles, where the historical 6502 takes 5. -/
theorem test_sta_absx_no_crossing :
    stores { start [0x9D, 0x00, 0x30] [] with x := 0x01, a := 0x5A } 0x3001 0x5A 0x0203 4 = true := by decide

/-- VS6. -/
theorem test_sta_absy_carry :
    stores { start [0x99, 0xF0, 0xFF] [] with y := 0x20, a := 0x77 } 0x0010 0x77 0x0203 5 = true := by decide

/-- VS7. -/
theorem test_sta_indx_pointer_at_ff :
    stores { start [0x81, 0xFF] [(0x00FF, 0x80), (0x0000, 0x25)] with a := 0x42 } 0x2580 0x42 0x0202 6 = true := by decide

/-- VS16. -/
theorem test_sta_indx_overwrites_pointer :
    stores { start [0x81, 0x20] [(0x0020, 0x20), (0x0021, 0x00)] with a := 0x21 } 0x0020 0x21 0x0202 6 = true := by decide

/-- VS8. -/
theorem test_sta_indy_crossing :
    stores { start [0x91, 0x40] [(0x0040, 0xFE), (0x0041, 0x20)] with y := 0x05, a := 0x99 } 0x2103 0x99 0x0202 6 = true := by decide

/-- VS9. -/
theorem test_sta_indy_no_crossing :
    stores { start [0x91, 0x40] [(0x0040, 0x00), (0x0041, 0x20)] with y := 0x05, a := 0x99 } 0x2005 0x99 0x0202 5 = true := by decide

/-- VS10. -/
theorem test_stx_zp :
    stores { start [0x86, 0x10] [] with x := 0xAB } 0x0010 0xAB 0x0202 3 = true := by decide

/-- VS11. -/
theorem test_stx_zpy :
    stores { start [0x96, 0xF0] [] with y := 0x20, x := 0xCD } 0x0010 0xCD 0x0202 4 = true := by decide

/-- VS12. -/
theorem test_stx_abs_zero_keeps_z :
    stores { start [0x8E, 0x34, 0x12] [(0x1234, 0xFF)] with x := 0x00 } 0x1234 0x00 0x0203 4 = true := by decide

/-- VS13. -/
theorem test_sty_zp :
    stores { start [0x84, 0xFF] [] with y := 0x01 } 0x00FF 0x01 0x0202 3 = true := by decide

/-- VS14. -/
theorem test_sty_zpx_wraps :
    stores { start [0x94, 0xFF] [] with x := 0x01, y := 0xEE } 0x0000 0xEE 0x0202 4 = true := by decide

/-- VS15. -/
theorem test_sty_abs_overwrites_itself :
    stores { start [0x8C, 0x00, 0x02] [] with y := 0x12 } 0x0200 0x12 0x0203 4 = true := by decide

/-! UnrecognizedOpcode, the engine, reset and the host (vectors S6, VX, VE, VR). -/

/-- S6: 0xFF at 0xFFFC. -/
theorem test_unrecognized_at_reset_entry :
    nextMeets (step (startAt 0xFFFC [0xFF] [])) (fun t => t.flagB && t.halt == .halted 0xFF 0xFFFC &&
      t.pc == 0xFFFD && t.cyc == 1 && t.a == 0x00 && t.sp == 0x00) = true := by decide

/-- R116: one load is a safe run, and an unrecognized byte ends in a fault state. -/
theorem test_safe_run : safeFor 1 (start [0xA9, 0x42] []) = true ∧ safeFor 1 (start [0xFF] []) = false := by decide

/-- VX8, VX9: a halted machine stays halted, B cleared or not. -/
theorem test_halted_execute_does_nothing :
    nextMeets (execute 100 { start [0xA9, 0x42] [] with halt := .halted 0xFF 0x01FF }) (fun t =>
      t == { start [0xA9, 0x42] [] with halt := .halted 0xFF 0x01FF }) = true := by decide

/-- VE1, VE2: a budget of 0 or less runs nothing. -/
theorem test_no_budget_runs_nothing :
    nextMeets (execute 0 (start [0xA9, 0x42] [])) (· == start [0xA9, 0x42] []) = true ∧
    nextMeets (execute (-5) (start [0xA9, 0x42] [])) (· == start [0xA9, 0x42] []) = true := by decide

/-- VE3: one instruction runs on a budget of 1 and ends at -1. -/
theorem test_execute_one :
    nextMeets (execute 1 (start [0xA9, 0x42, 0xA9, 0x43] [])) (fun t =>
      t.a == 0x42 && t.pc == 0x0202 && t.cyc == 2) = true := by decide

/-- VE6: the largest overshoot. -/
theorem test_execute_overshoot :
    nextMeets (execute 1 { start [0xB1, 0x40, 0xFF] [(0x0040, 0xFE), (0x0041, 0x20), (0x2103, 0x7F)] with y := 0x05 })
      (fun t => t.a == 0x7F && t.pc == 0x0202 && t.cyc == 6 && t.halt == .running) = true := by decide

/-- VR1: reset keeps CYC and memory; SP becomes 0x00. -/
theorem test_reset_operation :
    (let s : State :=
      { startAt 0x1234 [0x80] [] with
        a := 0x12, x := 0x34, y := 0x56, sp := 0x78, flagC := true, flagZ := true, flagI := true, flagD := true,
        flagB := true, flagV := true, flagN := true, halt := .halted 0xFF 0x1233, cyc := 77 }
     s.resetOp == { State.reset with cyc := 77, mem := [(0x1234, 0x80)] }) = true := by decide

/-- VE10: `load_state` truncates, and leaves CYC and HALT. -/
theorem test_load_state :
    (let t := loadState ⟨0x1FF, 1, 2, 0x100, 0x10200, 1, 0, 3, 2, 0, 1, 1⟩ { State.reset with cyc := 5, halt := .halted 0 0 }
     t.a == 0xFF && t.sp == 0x00 && t.pc == 0x0200 && t.flagC && t.flagI && !t.flagD && t.cyc == 5 &&
       t.halt == .halted 0 0) = true := by decide

/-- R42: writing what an unlisted address reads as removes the cell. -/
theorem test_memory_canonical :
    Memory.write (Memory.write (Memory.write [] 0x20 0x01) 0x10 0x02) 0x20 0x00 = [(0x10, 0x02)] := by decide

/-- R49: STA (zz),Y reads its bytes and its pointer, and writes once. -/
theorem test_accesses_sta_indy :
    stepAccesses { start [0x91, 0x40] [(0x0040, 0xFE), (0x0041, 0x20)] with y := 0x05, a := 0x99 } =
      [.read 0x0200, .read 0x0201, .read 0x0040, .read 0x0041, .write 0x2103 0x99] := by decide

/-- R70, R71: the examples of the syntax table. -/
theorem test_assembly :
    asmText (.ldaImm 0x42) = ['L', 'D', 'A', ' ', '#', '$', '4', '2'] ∧
    asmText (.ldaIndX 0x20) = ['L', 'D', 'A', ' ', '(', '$', '2', '0', ',', 'X', ')'] ∧
    asmText (.ldaAbsY 0x4402) = ['L', 'D', 'A', ' ', '$', '4', '4', '0', '2', ',', 'Y'] ∧
    byteText 0xFF = ['.', 'b', 'y', 't', 'e', ' ', '$', 'F', 'F'] := by decide

/-- A table word with the opcode alone stands for operand bytes of zeros. -/
theorem test_table_word :
    decodeTableWord 8 0xBD = some (.ldaAbsX 0x0000) ∧ decodeTableWord 24 0x4402BD = some (.ldaAbsX 0x4402) := by
  constructor <;> rfl

theorem test_placed_word_runs_first :
    nextMeets (step (State.reset.withFetchWord 16 0x42A9)) (fun t => t.a == 0x42 && t.pc == 0xFFFE) = true := by decide

/-! Witnesses: for each obligation with hypotheses, states and operands that meet them, at the edges of its clauses. -/

theorem witness_encode_then_decode : (Instr.ldaAbsX 0xFFFF).wf = true ∧ (Instr.staZp 0xFF).wf = true := by decide

theorem witness_decoded_bytes : decode [0xBD, 0xFF, 0xFF, 0x00] = .ok (.ldaAbsX 0xFFFF, [0x00]) := rfl

theorem witness_decoder_follows_table :
    opcodeRow 0x89 = none ∧
    opcodeRow 0x81 = some { opcode := 0x81, pageCrossExtra := false,
                            descriptor := { mnemonic := .sta, mode := .indexedIndirectX, baseCycles := 6 } } := by decide

theorem witness_operand_bytes : decode [0xFF, 0xA9, 0x00] = .error (.unrecognizedOpcode 0xFF) := rfl

/-- An instruction across the top of memory. -/
theorem witness_step_runs_decoded :
    (startAt 0xFFFE [0xAD, 0x34, 0x12] []).halt = .running ∧
    decode ((startAt 0xFFFE [0xAD, 0x34, 0x12] []).mem.bytesFrom 0xFFFE 3) = .ok (.ldaAbs 0x1234, []) :=
  ⟨rfl, rfl⟩

theorem witness_placed_table_word : decodeTableWord 16 0xFF91 = some (.staIndY 0xFF) := rfl

theorem witness_unrecognized_taken :
    (startAt 0xFFFF [0xFF] []).halt = .running ∧ opcodeRow ((startAt 0xFFFF [0xFF] []).mem.read 0xFFFF) = none := by
  decide

theorem witness_halted : ({ State.reset with halt := .halted 0x00 0xFFFF } : State).halt = .halted 0x00 0xFFFF := rfl

theorem witness_only_reset_leaves_halted :
    (HostOp.memWrite 0x0000 0x01) ≠ .reset ∧ ({ State.reset with halt := .halted 0x00 0xFFFF } : State).halt ≠ .running ∧
    ∃ s' r, hostStep (.memWrite 0x0000 0x01) { State.reset with halt := .halted 0x00 0xFFFF } = .next (s', r) :=
  ⟨by decide, by decide, _, _, rfl⟩

/-- The premises inside `CompletesAs`: a running machine with an instruction's bytes at PC, across the top of memory. -/
theorem witness_completes_as :
    (let s := startAt 0xFFFF [0xBD, 0x02, 0x44] []
     s.halt = .running ∧ s.mem.bytesFrom s.pc 3 = [0xBD, 0x02, 0x44] ∧ encode (.ldaAbsX 0x4402) = [0xBD, 0x02, 0x44]) :=
  ⟨rfl, rfl, rfl⟩

theorem witness_absolute : (0xFFFF : Word) = BitVec.ofNat 16 ((0xFF : Byte).toNat * 256 + (0xFF : Byte).toNat) := by decide

/-- The largest sum without a carry under `fault`, the smallest with one under each setting. -/
theorem witness_carry :
    carrySettled (0xFFFF + 0) { State.reset with params := ⟨.fault, .wrap⟩ } ∧
    carrySettled (0xFFFF + 1) State.reset ∧
    carryRefused (0xFFFF + 1) { State.reset with x := 0x01, y := 0x01, params := ⟨.fault, .wrap⟩ } ∧
    (0xFFFF : Word) = BitVec.ofNat 16 ((0xFF : Byte).toNat * 256 + (0xFF : Byte).toNat) :=
  ⟨.inr (by decide), .inl rfl, ⟨rfl, by decide⟩, by decide⟩

/-- The pointer's high byte at 0xFF under `wrap` and `linear`, below it under `fault`, and the refusal at it. -/
theorem witness_indexed_indirect :
    (0xFF : Byte) = BitVec.ofNat 8 ((0xF0 : Byte).toNat + (0x0F : Byte).toNat) ∧
    zpNext .wrap 0xFF = .ok 0x0000 ∧ zpNext .linear 0xFF = .ok 0x0100 ∧ zpNext .fault 0xFE = .ok 0x00FF ∧
    ({ State.reset with params := ⟨.wrap, .fault⟩ } : State).params.zpPointerWrap = .fault :=
  ⟨by decide, rfl, rfl, rfl, rfl⟩

/-- A pointer of 0xFFFF plus Y = 1 under both settings of the carry. -/
theorem witness_indirect_indexed :
    (let s : State := { start [] [(0x0040, 0xFF), (0x0041, 0xFF)] with y := 0x01, params := ⟨.fault, .fault⟩ }
     zpNext s.params.zpPointerWrap 0x40 = .ok 0x0041 ∧ 0xFFFF = pointerValue 0x40 0x0041 s ∧
       carryRefused (0xFFFF + s.y.toNat) s) ∧
    (let s : State := { start [] [(0x0040, 0xFF), (0x0041, 0xFF)] with y := 0x01 }
     zpNext s.params.zpPointerWrap 0x40 = .ok 0x0041 ∧ 0xFFFF = pointerValue 0x40 0x0041 s ∧
       carrySettled (0xFFFF + s.y.toNat) s) :=
  ⟨⟨rfl, by decide, rfl, by decide⟩, ⟨rfl, by decide, .inl rfl⟩⟩

theorem witness_zp_next : (0xFE : Byte).toNat < 0xFF ∧ (0xFF : Byte).toNat = 0xFF := by decide

theorem witness_carry16 : 0xFFFF ≤ 0xFFFF ∧ 0xFFFF < 0x10000 := by decide

/-- A load of each register, from memory and immediate, completes. -/
theorem witness_load_frame :
    (∃ t, exec (.ldaIndY 0xFF) State.reset = .next t) ∧ (∃ t, exec (.ldxZpY 0xFF) State.reset = .next t) ∧
    (∃ t, exec (.ldyImm 0x00) State.reset = .next t) ∧
    instrAddrMode (.ldyImm 0x00) = none ∧ instrAddrMode (.ldxZpY 0xFF) = some (.zeroPageY 0xFF) ∧
    effectiveAddress (.zeroPageY 0xFF) State.reset = .ok { addr := 0x00FF, extra := 3 } :=
  ⟨⟨_, rfl⟩, ⟨_, rfl⟩, ⟨_, rfl⟩, rfl, rfl, rfl⟩

/-- Each store form completes. -/
theorem witness_store_frame :
    (∃ t, exec (.staZp 0xFF) State.reset = .next t) ∧ (∃ t, exec (.staZpX 0xFF) State.reset = .next t) ∧
    (∃ t, exec (.staAbs 0xFFFF) State.reset = .next t) ∧ (∃ t, exec (.staAbsX 0xFFFF) State.reset = .next t) ∧
    (∃ t, exec (.staAbsY 0xFFFF) State.reset = .next t) ∧ (∃ t, exec (.staIndX 0xFF) State.reset = .next t) ∧
    (∃ t, exec (.staIndY 0xFF) State.reset = .next t) ∧ (∃ t, exec (.stxZp 0xFF) State.reset = .next t) ∧
    (∃ t, exec (.stxZpY 0xFF) State.reset = .next t) ∧ (∃ t, exec (.stxAbs 0xFFFF) State.reset = .next t) ∧
    (∃ t, exec (.styZp 0xFF) State.reset = .next t) ∧ (∃ t, exec (.styZpX 0xFF) State.reset = .next t) ∧
    (∃ t, exec (.styAbs 0xFFFF) State.reset = .next t) :=
  ⟨⟨_, rfl⟩, ⟨_, rfl⟩, ⟨_, rfl⟩, ⟨_, rfl⟩, ⟨_, rfl⟩, ⟨_, rfl⟩, ⟨_, rfl⟩, ⟨_, rfl⟩, ⟨_, rfl⟩, ⟨_, rfl⟩, ⟨_, rfl⟩,
    ⟨_, rfl⟩, ⟨_, rfl⟩⟩

theorem witness_pc_advances : ∃ t, exec (.ldaAbs 0x1234) { State.reset with pc := 0xFFFE } = .next t := ⟨_, rfl⟩

/-- A store that crosses a page, with its row; and an unrecognized byte's step. -/
theorem witness_cycles :
    (∃ t, exec (.staAbsX 0x30FF) { State.reset with x := 0x01 } = .next t) ∧
    encode (.staAbsX 0x30FF) = [0x9D, 0xFF, 0x30] ∧
    opcodeRow 0x9D = some { opcode := 0x9D, pageCrossExtra := true,
                            descriptor := { mnemonic := .sta, mode := .absoluteIndexedX, baseCycles := 4 } } ∧
    State.reset.halt = .running ∧ opcodeRow (State.reset.mem.read State.reset.pc) = none ∧
    (∃ t, step State.reset = .next t) :=
  ⟨⟨_, rfl⟩, rfl, rfl, rfl, rfl, ⟨_, rfl⟩⟩

/-- Two states that differ in SP, every flag and CYC, and a step from the first; and a refused one. -/
theorem witness_inert :
    (let s := start [0x8D, 0x00, 0x30] []
     SameReadState s { s with sp := 0xFF, flagC := true, flagZ := true, flagI := true, flagD := true, flagB := true,
                              flagV := true, flagN := true, cyc := 9 } ∧ ∃ t, step s = .next t) ∧
    step { start [0xB1, 0xFF] [] with params := ⟨.wrap, .fault⟩ } = .refused .zpPointerAtFF :=
  ⟨⟨⟨rfl, rfl, rfl, rfl, rfl, rfl, rfl⟩, ⟨_, rfl⟩⟩, rfl⟩

/-- A store whose next fetch is at the stored address: STA $0203 at 0x0200, and an address it does not write. -/
theorem witness_accesses :
    (let s : State := { start [0x8D, 0x03, 0x02] [] with a := 0xA2 }
     (∃ t, step s = .next t ∧ t.pc = 0x0203) ∧ .write 0x0203 0xA2 ∈ stepAccesses s ∧
       ∀ v, Access.write 0x0204 v ∉ stepAccesses s) := by
  refine ⟨⟨_, rfl, rfl⟩, by decide, fun v => ?_⟩
  simp only [show stepAccesses { start [0x8D, 0x03, 0x02] [] with a := 0xA2 } =
    [.read 0x0200, .read 0x0201, .read 0x0202, .write 0x0203 0xA2] from rfl, List.mem_cons, List.not_mem_nil, or_false]
  rintro (h | h | h | h) <;> cases h

/-- Another memory that agrees on the bytes a step reads: one more cell at 0x4000, which LDA #$42 does not read. -/
theorem witness_reads_only :
    (let s := start [0xA9, 0x42] []
     (∀ addr, .read addr ∈ stepAccesses s → (s.mem.write 0x4000 0x77).read addr = s.mem.read addr) ∧
       ∃ t, step s = .next t) := by
  refine ⟨fun addr h => ?_, ⟨_, rfl⟩⟩
  have hs : stepAccesses (start [0xA9, 0x42] []) = [.read 0x0200, .read 0x0201] := rfl
  rw [hs] at h
  have h' : addr = 0x0200 ∨ addr = 0x0201 := by simpa using h
  rcases h' with rfl | rfl <;> rfl

/-- A positive budget on a running machine: an instruction, an unrecognized byte, a refusal. -/
theorem witness_execute_loop :
    (0 : Int) < 1 ∧ (start [0xA9, 0x42] []).halt = .running ∧ (∃ t, step (start [0xA9, 0x42] []) = .next t) ∧
    (∃ t, step (start [0xFF] []) = .next t ∧ t.halt ≠ .running) ∧
    step { start [0xB1, 0xFF] [] with params := ⟨.wrap, .fault⟩ } = .refused .zpPointerAtFF :=
  ⟨by decide, rfl, ⟨_, rfl⟩, ⟨_, rfl, by decide⟩, rfl⟩

/-- An `execute` call that returns running and one that halts. -/
theorem witness_budget :
    (0 : Int) < 1 ∧ (start [0xA9, 0x42] []).halt = .running ∧
    (∃ t, execute 1 (start [0xA9, 0x42] []) = .next t ∧ t.halt = .running) ∧
    (∃ t, execute 1 (start [0xFF] []) = .next t ∧ t.halt ≠ .running) :=
  ⟨by decide, rfl, ⟨_, rfl, rfl⟩, ⟨_, rfl, by decide⟩⟩

theorem witness_reset_entry :
    (let s := startAt 0xFFFC [0xAD, 0x00, 0x80] []
     decode [s.mem.read 0xFFFC, s.mem.read 0xFFFD, s.mem.read 0xFFFE] = .ok (.ldaAbs 0x8000, [])) := rfl

theorem witness_host_memory : (0x0001 : Word) ≠ 0x0000 := by decide

theorem witness_load_state_clears_b : (⟨0, 0, 0, 0, 0, 1, 1, 1, 1, 0, 1, 1⟩ : LoadValues).flagB = 0 := rfl

theorem witness_cycle_counter :
    (∃ t r, hostStep (.execute 1) (start [0xA9, 0x42] []) = .next (t, r)) ∧
    (∃ t r, hostStep .reset State.reset = .next (t, r)) ∧ ∀ budget, HostOp.reset ≠ .execute budget :=
  ⟨⟨_, _, rfl⟩, ⟨_, _, rfl⟩, fun _ h => by cases h⟩

/-- A running and a halted state that meet the invariant, with a step. -/
theorem witness_invariant :
    (start [0xFF] []).Inv ∧ (∃ t, step (start [0xFF] []) = .next t) ∧
    ({ State.reset with halt := .halted 0xFF 0x0200 } : State).Inv :=
  ⟨⟨by decide, fun _ _ h => by simp [start, startAt, State.reset] at h⟩, ⟨_, rfl⟩,
    ⟨by decide, fun op addr h => by cases h; rfl⟩⟩

/-- Host runs that end: a write and a step from a good state, and a reset of a created machine. -/
theorem witness_host_runs :
    (∃ t, hostRun [.memWrite 0x0202 0x1FF, .execute 1] (start [0xA9, 0x42] []) = .next t) ∧
    ∃ t, hostRun [.reset] (createMachine Config.defaultParams (fun addr => BitVec.ofNat 8 addr.toNat)
      { State.reset with halt := .halted 0xA9 0x0000 }) = .next t :=
  ⟨⟨_, rfl⟩, ⟨_, rfl⟩⟩

end Sys2Proof.Tests
end

namespace Sys2Proof.Machine

/-! PROOFS. The state family (spec 10_state.md): what the engine reads, writes and keeps of the state, and the
invariant under every step and every host operation. -/

/-! Encoding, fetch and PC. -/

/-- The encoding of every instruction has its mode's length, 2 or 3 bytes (R60, R61). -/
theorem encode_length (i : Instr) : Laws.EncodingLength.Statement i := by
  cases i <;> exact ⟨rfl, Nat.le_of_ble_eq_true rfl, Nat.le_of_ble_eq_true rfl⟩

/-- An instruction that answers a next state moves PC by the instruction's length. -/
theorem exec_pc {i : Instr} {s t : State} (h : exec i s = .next t) : t.pc = s.pc + BitVec.ofNat 16 i.length := by
  rcases exec_next h with ⟨v, extra, -, -, -, rfl, -⟩ | ⟨m, e, -, -, -, rfl⟩
  · simp [finishLoad]
  · simp

/-- Settles O30: loads and stores alike advance PC by the length of the encoding, whatever the address. -/
theorem pcOnlyAdvancesByLength : Obligations.PcOnlyAdvancesByLength := by
  intro i s t h
  obtain ⟨hlen, hmin, hmax⟩ := encode_length i
  refine ⟨?_, by omega, by omega⟩
  rw [exec_pc h, word_add_ofNat, hlen, BitVec.toNat_ofNat]

/-- The fetch finds the instruction that the three bytes at PC decode to. -/
theorem fetchInstr_of_decode {s : State} {i : Instr} {rest : List Byte}
    (h : decode (s.mem.bytesFrom s.pc 3) = .ok (i, rest)) : fetchInstr s = some i := by
  have hpc : s.pc + 1 + 1 = s.pc + 2 := by bv_omega
  simp only [Memory.bytesFrom, decode, hpc] at h
  split at h
  case h_1 => cases h
  case h_2 make hd => cases h; simp [fetchInstr, opcodeAtPc, hd, assembleOperand]
  case h_3 make hd => cases h; simp [fetchInstr, opcodeAtPc, hd, assembleOperand]

/-- Settles O6: `decode` on the bytes at PC and the engine's own fetch agree. -/
theorem stepRunsDecodedInstruction : Obligations.StepRunsDecodedInstruction := by
  intro s i rest hrun hdec
  simp [step, hrun, fetchInstr_of_decode hdec]

/-! What an instruction and a step keep. -/

/-- An instruction that answers a next state keeps SP, C, I, D, B, V, HALT and the parameters. -/
theorem exec_keeps_inert {i : Instr} {s t : State} (h : exec i s = .next t) :
    t.sp = s.sp ∧ t.flagC = s.flagC ∧ t.flagI = s.flagI ∧ t.flagD = s.flagD ∧ t.flagB = s.flagB ∧
      t.flagV = s.flagV ∧ t.halt = s.halt ∧ t.params = s.params := by
  rcases exec_next h with ⟨v, extra, -, -, -, rfl, -⟩ | ⟨m, e, -, -, -, rfl⟩
  · simp [finishLoad]
  · simp

/-- An instruction that answers a next state leaves memory as it is or makes one byte write. -/
theorem exec_mem {i : Instr} {s t : State} (h : exec i s = .next t) :
    t.mem = s.mem ∨ ∃ addr v, t.mem = s.mem.write addr v := by
  rcases exec_next h with ⟨v, extra, -, -, -, rfl, -⟩ | ⟨m, e, -, -, -, rfl⟩
  · exact .inl (by simp [finishLoad])
  · exact .inr ⟨e.addr, _, rfl⟩

/-- Settles O32: an instruction keeps all of it, and UnrecognizedOpcode writes B and HALT alone. -/
theorem stepKeepsInertState : Obligations.StepKeepsInertState := by
  intro s t h
  rcases step_cases h with ⟨-, rfl⟩ | ⟨-, i, -, he⟩ | ⟨hrun, -, rfl⟩
  · simp
  · obtain ⟨hsp, hC, hI, hD, hB, hV, -, hp⟩ := exec_keeps_inert he
    exact ⟨hsp, hC, hI, hD, hV, hp, .inl hB⟩
  · simp [hrun]

/-! The state that no step reads. -/

/-- The outcomes of one operation at `s` and at `u` agree: next states that agree on what the engine reads, reached
with the same cycles charged, or one refusal. -/
inductive OutcomesAgree (s u : State) :
    Host.Outcome State Fault Refusal → Host.Outcome State Fault Refusal → Prop where
  | next {t w : State} (same : SameReadState t w) (charged : t.cyc + u.cyc = w.cyc + s.cyc) :
      OutcomesAgree s u (.next t) (.next w)
  | refused (r : Refusal) : OutcomesAgree s u (.refused r) (.refused r)

section
variable {s u : State} (h : SameReadState s u)
include h

theorem SameReadState.effectiveAddress_eq (m : AddrMode) : effectiveAddress m s = effectiveAddress m u := by
  obtain ⟨-, hx, hy, -, -, hm, hp⟩ := h
  exact effectiveAddress_congr hx hy hm hp

theorem SameReadState.getReg_eq (r : Reg) : s.getReg r = u.getReg r := by
  obtain ⟨ha, hx, hy, -⟩ := h
  cases r
  · exact ha
  · exact hx
  · exact hy

theorem SameReadState.opcodeAtPc_eq : opcodeAtPc s = opcodeAtPc u := by
  obtain ⟨-, -, -, hpc, -, hm, -⟩ := h
  simp [opcodeAtPc, hpc, hm]

theorem SameReadState.fetchInstr_eq : fetchInstr s = fetchInstr u := by
  obtain ⟨-, -, -, hpc, -, hm, -⟩ := h
  simp [fetchInstr, opcodeAtPc, hpc, hm]

theorem finishLoad_agree (r : Reg) (v : Byte) (len extra : Nat) :
    OutcomesAgree s u (.next (finishLoad r v len extra s)) (.next (finishLoad r v len extra u)) := by
  obtain ⟨ha, hx, hy, hpc, hh, hm, hp⟩ := h
  refine .next ?_ ?_
  · simp [SameReadState, finishLoad, ha, hx, hy, hpc, hh, hm, hp]
  · simp [finishLoad]; omega

theorem load_agree (r : Reg) (m : AddrMode) : OutcomesAgree s u (load r m s) (load r m u) := by
  have ⟨_, _, _, _, _, hm, _⟩ := h
  have hea := h.effectiveAddress_eq m
  cases hu : effectiveAddress m u with
  | error reason => simpa [load, hea, hu] using .refused reason
  | ok e =>
    rw [load_of_effectiveAddress r (hea.trans hu), load_of_effectiveAddress r hu, hm]
    exact finishLoad_agree h r _ _ _

theorem store_agree (r : Reg) (m : AddrMode) : OutcomesAgree s u (store r m s) (store r m u) := by
  have hea := h.effectiveAddress_eq m
  cases hu : effectiveAddress m u with
  | error reason => simpa [store, hea, hu] using .refused reason
  | ok e =>
    rw [store_of_effectiveAddress r (hea.trans hu), store_of_effectiveAddress r hu, h.getReg_eq r]
    obtain ⟨ha, hx, hy, hpc, hh, hm, hp⟩ := h
    refine .next ?_ ?_
    · simp [SameReadState, ha, hx, hy, hpc, hh, hm, hp]
    · simp; omega

theorem exec_agree (i : Instr) : OutcomesAgree s u (exec i s) (exec i u) := by
  rcases exec_cases i with ⟨-, -, -, op, v, -, he⟩ | ⟨m, -, -, -, he⟩ | ⟨m, -, -, -, he⟩
  · rw [he, he]; exact finishLoad_agree h _ v 2 1
  · rw [he, he]; exact load_agree h _ m
  · rw [he, he]; exact store_agree h _ m

theorem takeUnrecognizedOpcode_agree (op : Byte) :
    OutcomesAgree s u (.next (s.takeUnrecognizedOpcode op)) (.next (u.takeUnrecognizedOpcode op)) := by
  obtain ⟨ha, hx, hy, hpc, -, hm, hp⟩ := h
  refine .next ?_ ?_
  · simp [SameReadState, ha, hx, hy, hpc, hm, hp]
  · simp; omega

theorem step_agree : OutcomesAgree s u (step s) (step u) := by
  have ⟨_, _, _, _, hh, _⟩ := h
  unfold step
  rw [hh, h.fetchInstr_eq, h.opcodeAtPc_eq]
  cases u.halt with
  | halted op addr => exact .next h (Nat.add_comm _ _)
  | running =>
    cases fetchInstr u with
    | none => exact takeUnrecognizedOpcode_agree h _
    | some i => exact exec_agree h i

end

/-- Settles O33: the resolver, both families, the fetch and UnrecognizedOpcode use only what `SameReadState` fixes, so
the two steps' outcomes agree. -/
theorem inertStateIsNeverRead : Obligations.InertStateIsNeverRead := by
  intro s u h
  have hagree := step_agree h
  refine ⟨fun t ht => ?_, fun r hr => ?_⟩
  · rw [ht] at hagree
    generalize step u = o at hagree ⊢
    cases hagree with
    | next same charged => exact ⟨_, rfl, same, charged⟩
  · rw [hr] at hagree
    generalize step u = o at hagree ⊢
    cases hagree with
    | refused => rfl

/-! The invariant under a step. -/

/-- A write at any address keeps the invariant. -/
theorem State.Inv.memWrite {s : State} (h : s.Inv) (addr : Word) (v : Byte) : (s.memWrite addr v).Inv :=
  ⟨Memory.write_wf _ addr v h.memWf, h.haltRecord⟩

/-- A running machine's halt record is empty, so canonical memory is the whole invariant. -/
theorem State.inv_of_running {s : State} (hm : s.mem.wf) (hh : s.halt = .running) : s.Inv :=
  ⟨hm, fun op addr h => by rw [hh] at h; cases h⟩

/-- Settles O48: the reset memory lists nothing and the machine runs. -/
theorem resetStateMeetsInvariant : Obligations.ResetStateMeetsInvariant :=
  State.inv_of_running Memory.reset_wf rfl

/-- An instruction that answers a next state keeps the invariant. -/
theorem exec_keeps_inv {i : Instr} {s t : State} (hs : s.Inv) (h : exec i s = .next t) : t.Inv := by
  obtain ⟨-, -, -, -, -, -, hhalt, -⟩ := exec_keeps_inert h
  refine ⟨?_, fun op addr hop => hs.haltRecord op addr (hhalt ▸ hop)⟩
  rcases exec_mem h with hm | ⟨addr, v, hm⟩
  · rw [hm]; exact hs.memWf
  · rw [hm]; exact Memory.write_wf _ addr v hs.memWf

/-- Settles O49: the byte that UnrecognizedOpcode records is one for which the table has no row. -/
theorem stepKeepsInvariant : Obligations.StepKeepsInvariant := by
  intro s t hs h
  rcases step_cases h with ⟨-, rfl⟩ | ⟨-, i, -, he⟩ | ⟨-, hf, rfl⟩
  · exact hs
  · exact exec_keeps_inv hs he
  · refine ⟨hs.memWf, fun op addr hop => ?_⟩
    cases hop
    exact opcodeRow_of_fetchInstr_none s hf

/-! The host's operations. -/

/-- What a host operation that ends has done to the state. -/
theorem hostStep_next {op : HostOp} {s t : State} {r : HostReply} (h : hostStep op s = .next (t, r)) :
    (op = .reset ∧ t = s.resetOp) ∨
    (∃ budget, op = .execute budget ∧ execute budget s = .next t) ∨
    (∃ addr v, op = .memWrite addr v ∧ t = s.memWrite addr (BitVec.ofNat 8 (v % 256))) ∨
    (∃ l, op = .loadState l ∧ t = loadState l s) ∨
    t = s := by
  cases op with
  | reset => cases h; exact .inl ⟨rfl, rfl⟩
  | execute budget =>
    refine .inr (.inl ⟨budget, rfl, ?_⟩)
    simp only [hostStep] at h
    cases he : execute budget s with
    | next w => rw [he] at h; cases h; rfl
    | fault r => rw [he] at h; cases h
    | refused r => rw [he] at h; cases h
  | memRead addr => cases h; exact .inr (.inr (.inr (.inr rfl)))
  | memWrite addr v => cases h; exact .inr (.inr (.inl ⟨addr, v, rfl, rfl⟩))
  | readState => cases h; exact .inr (.inr (.inr (.inr rfl)))
  | loadState l => cases h; exact .inr (.inr (.inr (.inl ⟨l, rfl, rfl⟩)))

/-- A step never lowers CYC. -/
theorem step_cyc_le {s t : State} (h : step s = .next t) : s.cyc ≤ t.cyc := by
  by_cases hrun : s.halt = .running
  · have := step_cyc_running hrun h; omega
  · rcases step_cases h with ⟨-, rfl⟩ | ⟨hr, -⟩ | ⟨hr, -⟩
    · exact le_rfl
    · exact absurd hr hrun
    · exact absurd hr hrun

/-- Settles O47: `execute` is a chain of steps, none of which lowers CYC, and no other operation writes it. -/
theorem cycleCounterNeverDecreases : Obligations.CycleCounterNeverDecreases := by
  intro op s t r h
  rcases hostStep_next h with ⟨-, rfl⟩ | ⟨budget, rfl, he⟩ | ⟨addr, v, -, rfl⟩ | ⟨l, -, rfl⟩ | rfl
  · simp
  · have hle : s.cyc ≤ t.cyc :=
      executeLoop_preserves (fun a b => a.cyc ≤ b.cyc) (fun _ => le_rfl) (fun _ _ _ => le_trans)
        (fun _ _ => step_cyc_le) _ _ _ _ he
    exact ⟨hle, fun hne => absurd rfl (hne budget)⟩
  · simp
  · simp
  · simp

/-- Every host operation that ends keeps the invariant. -/
theorem hostStep_keeps_inv {op : HostOp} {s t : State} {r : HostReply} (hs : s.Inv)
    (h : hostStep op s = .next (t, r)) : t.Inv := by
  rcases hostStep_next h with ⟨-, rfl⟩ | ⟨budget, -, he⟩ | ⟨addr, v, -, rfl⟩ | ⟨l, -, rfl⟩ | rfl
  · exact State.inv_of_running hs.memWf rfl
  · exact executeLoop_preserves (fun a b => a.Inv → b.Inv) (fun _ => id) (fun _ _ _ hab hbc ha => hbc (hab ha))
      (fun a b hab ha => stepKeepsInvariant a b ha hab) _ _ _ _ he hs
  · exact hs.memWrite addr _
  · exact ⟨hs.memWf, hs.haltRecord⟩
  · exact hs

/-- A run that ends has ended its first operation and then run the others. -/
theorem hostRun_cons_next {op : HostOp} {ops : List HostOp} {s t : State} (h : hostRun (op :: ops) s = .next t) :
    ∃ u r, hostStep op s = .next (u, r) ∧ hostRun ops u = .next t := by
  simp only [hostRun] at h
  split at h
  · exact ⟨_, _, ‹_›, h⟩
  · cases h
  · cases h

/-- Every sequence of host operations that ends keeps the invariant. -/
theorem hostRun_keeps_inv {ops : List HostOp} {s t : State} (hs : s.Inv) (h : hostRun ops s = .next t) : t.Inv := by
  induction ops generalizing s with
  | nil => cases h; exact hs
  | cons op ops ih =>
    obtain ⟨u, r, hop, hrest⟩ := hostRun_cons_next h
    exact ih (hostStep_keeps_inv hs hop) hrest

/-- `reset()` of a created machine meets the invariant, whatever HALT the draw held. -/
theorem createMachine_resetOp_inv (params : Config.Params) (memInit : Word → Byte) (pre : State) :
    (createMachine params memInit pre).resetOp.Inv :=
  State.inv_of_running (Memory.ofFunBelow_wf memInit 65536 le_rfl) rfl

/-- Settles O50: each operation keeps the invariant, and the first `reset()` establishes it. -/
theorem hostRunsKeepInvariant : Obligations.HostRunsKeepInvariant := by
  refine ⟨fun ops s t hs h => hostRun_keeps_inv hs h, fun params memInit pre ops t h => ?_⟩
  exact hostRun_keeps_inv (createMachine_resetOp_inv params memInit pre) h

/-! Creation and `load_state`. -/

/-- A memory that is all `Config.unlistedByte` lists no cell. -/
theorem Memory.ofFunBelow_unlisted (n : Nat) : Memory.ofFunBelow (fun _ => Config.unlistedByte) n = [] := by
  induction n with
  | zero => rfl
  | succ n ih => simp [Memory.ofFunBelow, ih]

/-- Settles O43: `reset()` writes every field but CYC, MEM and the parameters, which creation has set. -/
theorem resetStateIsCreationThenReset : Obligations.ResetStateIsCreationThenReset := by
  intro pre
  have hmem : Memory.ofFun (fun _ => 0x00) = [] := Memory.ofFunBelow_unlisted 65536
  simp only [hostStep, createMachine, State.resetOp, hmem]
  rfl

theorem flagOf_eq_decide (v : Nat) : flagOf v = decide (v % 2 = 1) := rfl

/-- Settles O46: the state that `loadState` gives is the witness. -/
theorem loadThenReadState : Obligations.LoadThenReadState := by
  intro l s
  refine ⟨loadState l s, rfl, rfl, rfl, ?_⟩
  simp only [← flagOf_eq_decide]
  rfl

end Sys2Proof.Machine

namespace Sys2Proof.Machine

/-! PROOFS. The memory family (spec 20_memory.md): what a step reads and writes, which its access list says (R49), and
the host's side of memory: reset, creation, `mem_read` and `mem_write`. -/

/-! What an access list does to memory. -/

theorem applyAccesses_append (as bs : List Access) (m : Memory) :
    applyAccesses (as ++ bs) m = applyAccesses bs (applyAccesses as m) := by
  induction as generalizing m with
  | nil => rfl
  | cons acc as ih => cases acc <;> exact ih _

/-- A list with no write leaves memory as it is. -/
theorem applyAccesses_of_no_write {as : List Access} (h : ∀ addr v, .write addr v ∉ as) (m : Memory) :
    applyAccesses as m = m := by
  induction as with
  | nil => rfl
  | cons acc as ih =>
    cases acc with
    | read addr => exact ih fun b v hb => h b v (List.mem_cons_of_mem _ hb)
    | write addr v => exact absurd List.mem_cons_self (h addr v)

/-- An address that a list does not write reads as before. -/
theorem applyAccesses_read_of_not_written {as : List Access} {addr : Word} (h : ∀ v, .write addr v ∉ as) (m : Memory) :
    (applyAccesses as m).read addr = m.read addr := by
  induction as generalizing m with
  | nil => rfl
  | cons acc as ih =>
    have hrest := ih fun v hv => h v (List.mem_cons_of_mem _ hv)
    cases acc with
    | read b => exact hrest m
    | write b w =>
      have hne : addr ≠ b := fun hab => h w (hab ▸ List.mem_cons_self)
      calc (applyAccesses as (m.write b w)).read addr
        _ = (m.write b w).read addr := hrest _
        _ = m.read addr := by simp [hne]

/-! The access list of an instruction: its reads, then the one data access. -/

theorem write_not_mem_readsFrom (pc addr : Word) (n : Nat) (v : Byte) : .write addr v ∉ readsFrom pc n := by
  induction n generalizing pc with
  | zero => simp [readsFrom]
  | succ n ih => simp [readsFrom, ih]

theorem write_not_mem_pointerReads (p : Byte) (s : State) (addr : Word) (v : Byte) :
    .write addr v ∉ pointerReads p s := by
  unfold pointerReads
  split <;> simp

theorem write_not_mem_modeReads (md : AddrMode) (s : State) (addr : Word) (v : Byte) :
    .write addr v ∉ modeReads md s := by
  cases md with
  | indexedIndirectX zz => exact write_not_mem_pointerReads _ s addr v
  | indirectIndexedY zz => exact write_not_mem_pointerReads zz s addr v
  | zeroPage _ | zeroPageX _ | zeroPageY _ | absolute _ | absoluteX _ | absoluteY _ => exact List.not_mem_nil

/-- The reads before an instruction's data access leave memory to that access. -/
theorem applyAccesses_reads_then (pc : Word) (n : Nat) (md : AddrMode) (s : State) (acc : Access) (m : Memory) :
    applyAccesses (readsFrom pc n ++ (modeReads md s ++ [acc])) m = applyAccesses [acc] m := by
  rw [applyAccesses_append, applyAccesses_append, applyAccesses_of_no_write (write_not_mem_readsFrom pc · n ·),
    applyAccesses_of_no_write (write_not_mem_modeReads md s)]

theorem instrAccesses_immediate {i : Instr} {s : State} (hm : instrAddrMode i = none) :
    instrAccesses i s = readsFrom s.pc i.length := by
  simp [instrAccesses, hm]

theorem instrAccesses_memory {i : Instr} {md : AddrMode} {s : State} {e : EffAddr} (hm : instrAddrMode i = some md)
    (he : effectiveAddress md s = .ok e) :
    instrAccesses i s = readsFrom s.pc i.length ++ (modeReads md s ++ [dataAccess i.mnemonic e.addr s]) := by
  simp [instrAccesses, hm, he]

theorem dataAccess_load {op : Mnemonic} (h : isStore op = false) (addr : Word) (s : State) :
    dataAccess op addr s = .read addr := by
  cases op with
  | lda | ldx | ldy => rfl
  | sta | stx | sty => cases h

theorem dataAccess_store {op : Mnemonic} (h : isStore op = true) (addr : Word) (s : State) :
    dataAccess op addr s = .write addr (s.getReg (mnemonicReg op)) := by
  cases op with
  | sta | stx | sty => rfl
  | lda | ldx | ldy => cases h

/-! A memory that agrees on the bytes read. -/

/-- The memory `m` agrees with `s`'s on every address that the accesses read. -/
def AgreesOnReads (m : Memory) (s : State) (as : List Access) : Prop :=
  ∀ addr, .read addr ∈ as → m.read addr = s.mem.read addr

section
variable {m : Memory} {s t : State}

theorem AgreesOnReads.left {as bs : List Access} (h : AgreesOnReads m s (as ++ bs)) : AgreesOnReads m s as :=
  fun addr hr => h addr (List.mem_append_left bs hr)

theorem AgreesOnReads.right {as bs : List Access} (h : AgreesOnReads m s (as ++ bs)) : AgreesOnReads m s bs :=
  fun addr hr => h addr (List.mem_append_right as hr)

theorem bytesFrom_eq_of_agrees {pc : Word} {n : Nat} (h : AgreesOnReads m s (readsFrom pc n)) :
    m.bytesFrom pc n = s.mem.bytesFrom pc n := by
  induction n generalizing pc with
  | zero => rfl
  | succ n ih =>
    have hhead : m.read pc = s.mem.read pc := h pc List.mem_cons_self
    have htail := ih fun addr hr => h addr (List.mem_cons_of_mem _ hr)
    rw [Memory.bytesFrom, Memory.bytesFrom, hhead, htail]

theorem pointerAt_eq_of_agrees {p : Byte} (h : AgreesOnReads m s (pointerReads p s)) :
    pointerAt p { s with mem := m } = pointerAt p s := by
  unfold pointerReads at h
  cases hz : zpNext s.params.zpPointerWrap p with
  | error r => simp [pointerAt, hz]
  | ok next =>
    simp only [hz] at h
    have hlo := h (zext16 p) (by simp)
    have hhi := h next (by simp)
    simp [pointerAt, hz, hlo, hhi]

/-- The resolver reads no byte of memory but the pointer bytes of the two indirect modes. -/
theorem effectiveAddress_eq_of_agrees {md : AddrMode} (h : AgreesOnReads m s (modeReads md s)) :
    effectiveAddress md { s with mem := m } = effectiveAddress md s := by
  cases md with
  | indexedIndirectX zz => simp only [effectiveAddress, indexedIndirect, pointerAt_eq_of_agrees h]
  | indirectIndexedY zz => simp only [effectiveAddress, indirectIndexed, pointerAt_eq_of_agrees h, indexedFrom]
  | zeroPage _ | zeroPageX _ | zeroPageY _ | absolute _ | absoluteX _ | absoluteY _ => rfl

theorem finishLoad_with_mem (r : Reg) (v : Byte) (len extra : Nat) :
    finishLoad r v len extra { s with mem := m } = { finishLoad r v len extra s with mem := m } := by
  cases r <;> rfl

theorem getReg_with_mem (r : Reg) : ({ s with mem := m } : State).getReg r = s.getReg r := by
  cases r <;> rfl

/-- An instruction reads no byte outside its access list, and writes what the list does. -/
theorem exec_with_mem {i : Instr} (h : AgreesOnReads m s (instrAccesses i s)) (hx : exec i s = .next t) :
    exec i { s with mem := m } = .next { t with mem := applyAccesses (instrAccesses i s) m } := by
  rcases exec_cases i with ⟨hm, -, -, op, v, -, hex⟩ | ⟨md, hm, hst, -, hex⟩ | ⟨md, hm, hst, -, hex⟩
  · rw [hex] at hx ⊢
    cases hx
    rw [instrAccesses_immediate hm, applyAccesses_of_no_write (write_not_mem_readsFrom s.pc · i.length ·),
      loadImmediate, finishLoad_with_mem]
  · rw [hex] at hx ⊢
    obtain ⟨e, he, rfl⟩ := load_next hx
    rw [instrAccesses_memory hm he, dataAccess_load hst] at h ⊢
    have hdata : m.read e.addr = s.mem.read e.addr := h.right.right e.addr List.mem_cons_self
    rw [load_of_effectiveAddress _ ((effectiveAddress_eq_of_agrees h.right.left).trans he), hdata,
      finishLoad_with_mem, applyAccesses_reads_then]
    rfl
  · rw [hex] at hx ⊢
    obtain ⟨e, he, rfl⟩ := store_next hx
    rw [instrAccesses_memory hm he, dataAccess_store hst] at h ⊢
    rw [store_of_effectiveAddress _ ((effectiveAddress_eq_of_agrees h.right.left).trans he), getReg_with_mem,
      applyAccesses_reads_then]
    rfl

/-- The bytes at PC of a fetched instruction are its encoding. -/
theorem encode_of_fetchInstr {i : Instr} (h : fetchInstr s = some i) :
    s.mem.bytesFrom s.pc (encode i).length = encode i := by
  have hpc : s.pc + 1 + 1 = s.pc + 2 := by bv_omega
  rcases decodeOpcode_cases (s.mem.read s.pc) with
    ⟨hd, -⟩ | ⟨make, _, _, _, _, hd, -, hmake⟩ | ⟨make, _, _, _, _, hd, -, hmake⟩
  · simp [fetchInstr, opcodeAtPc, hd] at h
  · simp only [fetchInstr, opcodeAtPc, memRead_eq, hd, assembleOperand, Option.some.injEq] at h
    obtain ⟨henc, -⟩ := hmake (s.mem.read (s.pc + 1))
    rw [← h, henc]
    rfl
  · simp only [fetchInstr, opcodeAtPc, memRead_eq, hd, assembleOperand, Option.some.injEq] at h
    obtain ⟨henc, -⟩ := hmake (le16 (s.mem.read (s.pc + 1)) (s.mem.read (s.pc + 2)))
    rw [← h, henc, loByte_le16, hiByte_le16, ← hpc]
    rfl

/-- A memory that agrees on an instruction's own bytes gives the same fetch. -/
theorem fetchInstr_with_mem {i : Instr} (h : AgreesOnReads m s (readsFrom s.pc i.length))
    (hf : fetchInstr s = some i) : fetchInstr { s with mem := m } = some i := by
  obtain ⟨hlen, -⟩ := encode_length i
  refine fetchInstr_of_encode i _ ?_
  rw [← hlen] at h
  exact (bytesFrom_eq_of_agrees h).trans (encode_of_fetchInstr hf)

/-- Whether the opcode byte is recognized depends on that byte alone. -/
theorem fetchInstr_none_with_mem (h : m.read s.pc = s.mem.read s.pc) (hf : fetchInstr s = none) :
    fetchInstr { s with mem := m } = none :=
  fetchInstr_none _ (h ▸ opcodeRow_of_fetchInstr_none s hf)

end

/-! The step. -/

theorem stepAccesses_halted {s : State} (hr : s.halt ≠ .running) : stepAccesses s = [] := by
  cases hh : s.halt with
  | running => exact absurd hh hr
  | halted op addr => simp [stepAccesses, hh]

theorem stepAccesses_instr {s : State} {i : Instr} (hr : s.halt = .running) (hf : fetchInstr s = some i) :
    stepAccesses s = instrAccesses i s := by
  simp [stepAccesses, hr, hf]

theorem stepAccesses_unrecognized {s : State} (hr : s.halt = .running) (hf : fetchInstr s = none) :
    stepAccesses s = [.read s.pc] := by
  simp [stepAccesses, hr, hf]

theorem step_halted {s : State} (hr : s.halt ≠ .running) : step s = .next s := by
  cases hh : s.halt with
  | running => exact absurd hh hr
  | halted op addr => simp [step, hh]

theorem step_instr {s : State} {i : Instr} (hr : s.halt = .running) (hf : fetchInstr s = some i) :
    step s = exec i s := by
  simp [step, hr, hf]

theorem step_unrecognized {s : State} (hr : s.halt = .running) (hf : fetchInstr s = none) :
    step s = .next (s.takeUnrecognizedOpcode (opcodeAtPc s)) := by
  simp [step, hr, hf]

/-- The reads of an instruction's own bytes come first in its access list. -/
theorem AgreesOnReads.ownBytes {m : Memory} {s : State} {i : Instr} (h : AgreesOnReads m s (instrAccesses i s)) :
    AgreesOnReads m s (readsFrom s.pc i.length) := h.left

/-- A step reads no byte outside its access list, and writes what the list does: when halted, nothing; else the fetch
reads the instruction's own bytes, or the opcode byte alone when it is unrecognized, and the instruction the others. -/
theorem step_with_mem {m : Memory} {s t : State} (h : AgreesOnReads m s (stepAccesses s)) (ht : step s = .next t) :
    step { s with mem := m } = .next { t with mem := applyAccesses (stepAccesses s) m } := by
  rcases step_cases ht with ⟨hr, rfl⟩ | ⟨hr, i, hf, hx⟩ | ⟨hr, hf, rfl⟩
  · rw [stepAccesses_halted hr, step_halted (s := { t with mem := m }) hr]
    rfl
  · rw [stepAccesses_instr hr hf] at h ⊢
    rw [step_instr (s := { s with mem := m }) hr (fetchInstr_with_mem h.ownBytes hf)]
    exact exec_with_mem h hx
  · rw [stepAccesses_unrecognized hr hf] at h ⊢
    have hop : m.read s.pc = s.mem.read s.pc := h s.pc List.mem_cons_self
    rw [step_unrecognized (s := { s with mem := m }) hr (fetchInstr_none_with_mem hop hf), opcodeAtPc, memRead_eq, hop]
    rfl

/-- Settles O35: the fetch, the resolver and the data access each read only bytes that the access list names. -/
theorem stepReadsOnlyItsAccesses : Obligations.StepReadsOnlyItsAccesses :=
  fun _ _ _ hagree ht => step_with_mem hagree ht

/-- A step's next memory is its access list applied to the memory before: `step_with_mem` with the state's own memory. -/
theorem step_mem {s t : State} (h : step s = .next t) : t.mem = applyAccesses (stepAccesses s) s.mem := by
  have hsame : step s = .next { t with mem := applyAccesses (stepAccesses s) s.mem } :=
    step_with_mem (fun _ _ => rfl) h
  rw [h] at hsame
  exact congrArg State.mem (Host.Outcome.next.inj hsame)

/-- Settles O34: the list applied to memory is the next memory, and it changes no address it does not write. -/
theorem stepWritesExactlyItsAccesses : Obligations.StepWritesExactlyItsAccesses := by
  intro s t h
  refine ⟨step_mem h, fun addr hno => ?_⟩
  rw [step_mem h]
  exact applyAccesses_read_of_not_written hno s.mem

/-! The one write of a step. -/

/-- A write in an instruction's access list is the last access of the list. -/
theorem instrAccesses_write_last {i : Instr} {s : State} {addr : Word} {v : Byte}
    (h : .write addr v ∈ instrAccesses i s) : ∃ as, instrAccesses i s = as ++ [.write addr v] := by
  have hown := write_not_mem_readsFrom s.pc addr i.length v
  cases hm : instrAddrMode i with
  | none => exact absurd (instrAccesses_immediate hm ▸ h) hown
  | some md =>
    have hmode := write_not_mem_modeReads md s addr v
    cases he : effectiveAddress md s with
    | error r => simp [instrAccesses, hm, he, hown, hmode] at h
    | ok e =>
      rw [instrAccesses_memory hm he] at h ⊢
      have hdata : .write addr v = dataAccess i.mnemonic e.addr s := by simpa [hown, hmode] using h
      exact ⟨readsFrom s.pc i.length ++ modeReads md s, by rw [hdata, List.append_assoc]⟩

/-- A write in a step's access list is the last access of the list. -/
theorem stepAccesses_write_last {s : State} {addr : Word} {v : Byte} (h : .write addr v ∈ stepAccesses s) :
    ∃ as, stepAccesses s = as ++ [.write addr v] := by
  by_cases hr : s.halt = .running
  · cases hf : fetchInstr s with
    | none => simp [stepAccesses_unrecognized hr hf] at h
    | some i =>
      rw [stepAccesses_instr hr hf] at h ⊢
      exact instrAccesses_write_last h
  · simp [stepAccesses_halted hr] at h

/-- Settles O36: the write is the list's last access, so no later one of the step hides the byte. -/
theorem storeIsSeenByTheNextFetch : Obligations.StoreIsSeenByTheNextFetch := by
  intro s t addr v ht hw
  obtain ⟨as, has⟩ := stepAccesses_write_last hw
  have hread : t.mem.read addr = v := by
    rw [step_mem ht, has, applyAccesses_append]
    simp [applyAccesses]
  exact ⟨hread, fun hpc => by rw [opcodeAtPc, memRead_eq, hpc, hread]⟩

/-! Creation, reset and the host's reads and writes. -/

/-- A memory given as a function reads as that function at every address. -/
theorem Memory.read_ofFun (f : Word → Byte) (addr : Word) : (Memory.ofFun f).read addr = f addr := by
  rw [Memory.ofFun, Memory.read_ofFunBelow, if_pos addr.isLt]

/-- Settles O44: creation takes memory from MEM_INIT, sets CYC and the parameters, and leaves the draw. -/
theorem creationTakesMemInitAndDraw : Obligations.CreationTakesMemInitAndDraw :=
  fun _ memInit _ => ⟨rfl, Memory.read_ofFun memInit, Memory.ofFunBelow_wf memInit 65536 le_rfl, rfl⟩

/-- Settles O42: after `reset()` the machine runs with PC at 0xFFFC, and the three bytes fetched there do not wrap. -/
theorem resetEntersAtFFFC : Obligations.ResetEntersAtFFFC := by
  intro s i rest hdec
  exact ⟨resetOp_pc s, stepRunsDecodedInstruction s.resetOp i rest (resetOp_halt s) hdec⟩

/-- Settles O45: `mem_write` is a write of the byte `v` modulo 256. -/
theorem hostMemoryOperations : Obligations.HostMemoryOperations := by
  intro s addr v
  refine ⟨rfl, s.mem.write addr (BitVec.ofNat 8 (v % 256)), rfl, ?_, fun other hne => ?_⟩
  · simp
  · simp [hne]

end Sys2Proof.Machine

namespace Sys2Proof

/-! PROOFS. The encoding family (spec 30_encoding.md): the decoder, the encoder and the opcode table agree. -/

/-! The decoder, one equation for each thing the opcode byte can ask for. -/

section
variable {op : Byte}

theorem decode_unrecognized (h : decodeOpcode op = none) (rest : List Byte) :
    decode (op :: rest) = .error (.unrecognizedOpcode op) := by
  simp [decode, h]

theorem decode_oneByte {make : Byte → Instr} (h : decodeOpcode op = some (.oneByte make)) (v : Byte)
    (rest : List Byte) : decode (op :: v :: rest) = .ok (make v, rest) := by
  simp [decode, h]

theorem decode_twoByte {make : Word → Instr} (h : decodeOpcode op = some (.twoByte make)) (l hi : Byte)
    (rest : List Byte) : decode (op :: l :: hi :: rest) = .ok (make (le16 l hi), rest) := by
  simp [decode, h]

/-- An instruction of format F2 is encoded with the opcode byte that asks for it (R60). -/
theorem encode_oneByte {make : Byte → Instr} (h : decodeOpcode op = some (.oneByte make)) (v : Byte) :
    encode (make v) = [op, v] := by
  rcases decodeOpcode_cases op with ⟨hd, -⟩ | ⟨_, _, _, _, _, hd, -, hmake⟩ | ⟨_, _, _, _, _, hd, -, -⟩
  · simp [hd] at h
  · obtain rfl : _ = make := by simpa [hd] using h
    exact (hmake v).1
  · simp [hd] at h

/-- An instruction of format F3 is encoded with the opcode byte that asks for it, low byte first (R60, R62). -/
theorem encode_twoByte {make : Word → Instr} (h : decodeOpcode op = some (.twoByte make)) (w : Word) :
    encode (make w) = [op, loByte w, hiByte w] := by
  rcases decodeOpcode_cases op with ⟨hd, -⟩ | ⟨_, _, _, _, _, hd, -, -⟩ | ⟨_, _, _, _, _, hd, -, hmake⟩
  · simp [hd] at h
  · simp [hd] at h
  · obtain rfl : _ = make := by simpa [hd] using h
    exact (hmake w).1

end

/-- Every instruction is one that some opcode byte asks for, with its operand: one byte or a word (R64). -/
theorem encode_cases (i : Instr) :
    (∃ op make v, encode i = [op, v] ∧ decodeOpcode op = some (.oneByte make) ∧ make v = i) ∨
    (∃ op make w, encode i = [op, loByte w, hiByte w] ∧ decodeOpcode op = some (.twoByte make) ∧ make w = i) := by
  cases i with
  | ldaImm v | ldaZp v | ldaZpX v | ldaIndX v | ldaIndY v | ldxImm v | ldxZp v | ldxZpY v | ldyImm v | ldyZp v
  | ldyZpX v | staZp v | staZpX v | staIndX v | staIndY v | stxZp v | stxZpY v | styZp v | styZpX v =>
    exact .inl ⟨_, _, v, rfl, rfl, rfl⟩
  | ldaAbs w | ldaAbsX w | ldaAbsY w | ldxAbs w | ldxAbsY w | ldyAbs w | ldyAbsX w | staAbs w | staAbsX w | staAbsY w
  | stxAbs w | styAbs w =>
    exact .inr ⟨_, _, w, rfl, rfl, rfl⟩

/-- Settles O2: the opcode byte gives the constructor back, and the operand bytes the operand. Every instruction is well
formed (R68), so `wf` is not used. -/
theorem encodeThenDecodeIsIdentity : Obligations.EncodeThenDecodeIsIdentity := by
  intro i rest _
  rcases encode_cases i with ⟨op, make, v, henc, hd, rfl⟩ | ⟨op, make, w, henc, hd, rfl⟩
  · rw [henc]
    exact decode_oneByte hd v rest
  · rw [henc]
    simpa using decode_twoByte hd (loByte w) (hiByte w) rest

/-- What decodes: an opcode byte that asks for an operand, the operand's bytes, and the rest. -/
theorem decode_ok {bytes rest : List Byte} {i : Instr} (h : decode bytes = .ok (i, rest)) :
    (∃ op make v, decodeOpcode op = some (.oneByte make) ∧ bytes = op :: v :: rest ∧ i = make v) ∨
    (∃ op make l hi, decodeOpcode op = some (.twoByte make) ∧ bytes = op :: l :: hi :: rest ∧
      i = make (le16 l hi)) := by
  fun_cases decode bytes with
  | case1 => cases h
  | case2 op tail hd =>
    rw [decode_unrecognized hd] at h
    cases h
  | case3 op make hd v tail =>
    rw [decode_oneByte hd] at h
    cases h
    exact .inl ⟨op, make, v, hd, rfl, rfl⟩
  | case4 op make hd => simp [decode, hd] at h
  | case5 op make hd l hi tail =>
    rw [decode_twoByte hd] at h
    cases h
    exact .inr ⟨op, make, l, hi, hd, rfl, rfl⟩
  | case6 op tail make hd hshort => simp [decode, hd] at h

/-- Settles O3: the bytes decoded are the opcode byte and the operand's, which are what `encode` writes. -/
theorem decodedBytesAreTheEncoding : Obligations.DecodedBytesAreTheEncoding := by
  intro bytes i rest h
  rcases decode_ok h with ⟨op, make, v, hd, rfl, rfl⟩ | ⟨op, make, l, hi, hd, rfl, rfl⟩
  · rw [encode_oneByte hd]
    rfl
  · rw [encode_twoByte hd, loByte_le16, hiByte_le16]
    rfl

/-- Settles O4: `decodeOpcode_cases` gives a byte's format and its row together. -/
theorem decoderFollowsOpcodeTable : Obligations.DecoderFollowsOpcodeTable := by
  intro op b1 b2 rest
  rcases decodeOpcode_cases op with
    ⟨hd, hrow⟩ | ⟨make, mn, mode, _, _, hd, hrow, hmake⟩ | ⟨make, mn, mode, _, _, hd, hrow, hmake⟩
  · exact ⟨fun _ => decode_unrecognized hd _, by simp [hrow]⟩
  · refine ⟨by simp [hrow], fun row h => ?_⟩
    obtain rfl := Option.some.inj (hrow.symm.trans h)
    obtain ⟨-, hmn, hmode, hlen⟩ := hmake b1
    exact ⟨make b1, b2 :: rest, decode_oneByte hd b1 _, hmn, hmode, by simp [hmode, hlen]⟩
  · refine ⟨by simp [hrow], fun row h => ?_⟩
    obtain rfl := Option.some.inj (hrow.symm.trans h)
    obtain ⟨-, hmn, hmode, hlen⟩ := hmake (le16 b1 b2)
    exact ⟨make (le16 b1 b2), rest, decode_twoByte hd b1 b2 _, hmn, hmode, by simp [hmode, hlen]⟩

/-- Settles O5: with two bytes after it, an opcode byte of either format decodes whatever they are. -/
theorem operandBytesAreNeverChecked : Obligations.OperandBytesAreNeverChecked := by
  intro op b1 b2 c1 c2 e h
  match hd : decodeOpcode op with
  | none =>
    rw [decode_unrecognized hd] at h ⊢
    cases h
    exact ⟨rfl, rfl⟩
  | some (.oneByte make) => simp [decode_oneByte hd] at h
  | some (.twoByte make) => simp [decode_twoByte hd] at h

/-- Settles O1: each sequence is evaluated. -/
theorem specEncodingsDecode : Obligations.SpecEncodingsDecode :=
  ⟨rfl, rfl, rfl, rfl, rfl, rfl, rfl, rfl, rfl, rfl, rfl⟩

end Sys2Proof

namespace Sys2Proof.Machine

/-! PROOFS. The addressing family (spec 40_addressing_modes.md): the resolver's three helpers, and when the resolver
refuses. -/

/-! `PageCross`. -/

theorem pageCross_eq_one_iff {base : Word} {sum : Nat} :
    pageCross base sum = 1 ↔ base.toNat &&& 0xFF00 ≠ sum &&& 0xFF00 := by
  simp [pageCross]

/-- The pages of a base and of its sum with an index byte differ when the low byte carries out. -/
theorem pageCross_eq_one_iff_carry {base : Word} {index : Byte} :
    pageCross base (base.toNat + index.toNat) = 1 ↔ base.toNat % 256 + index.toNat > 0xFF := by
  have hindex := index.isLt
  rw [pageCross_eq_one_iff, and_page_mask, and_page_mask]
  omega

/-- The mask drops what lies above bit 15. -/
theorem pageCross_mod (base : Word) (sum : Nat) : pageCross base (sum % 65536) = pageCross base sum := by
  have hpage : sum % 65536 / 256 % 256 = sum / 256 % 256 := by omega
  simp only [pageCross, and_page_mask, hpage]

@[simp] theorem pageCross_self (base : Word) : pageCross base base.toNat = 0 := by
  simp [pageCross]

/-- Settles O26: the mask keeps the page number, which an index byte raises by the low byte's carry alone. -/
theorem pageCrossIsLowByteCarry : Obligations.PageCrossIsLowByteCarry := fun base _ =>
  ⟨pageCross_eq_one_iff, pageCross_eq_one_iff_carry, pageCross_mod base _,
    Nat.le_one_iff_eq_zero_or_eq_one.mp (pageCross_le_one base _), pageCross_self base⟩

/-! `ZpNext` and `Carry16`. -/

theorem zpNext_wrap (p : Byte) : zpNext .wrap p = .ok (BitVec.ofNat 16 ((p.toNat + 1) % 256)) := by
  refine congrArg Except.ok (BitVec.eq_of_toNat_eq ?_)
  simp only [zext16_toNat, BitVec.toNat_add, BitVec.ofNat_eq_ofNat, BitVec.toNat_ofNat]
  omega

theorem zpNext_linear (p : Byte) : zpNext .linear p = .ok (BitVec.ofNat 16 (p.toNat + 1)) := by
  refine congrArg Except.ok (BitVec.eq_of_toNat_eq ?_)
  simp only [zext16_toNat, BitVec.toNat_add, BitVec.ofNat_eq_ofNat, BitVec.toNat_ofNat]

theorem zpNext_fault_at_ff {p : Byte} (h : p.toNat = 0xFF) : zpNext .fault p = .error .zpPointerAtFF := by
  simp [zpNext, h]

/-- Settles O24: 0xFF is the one pointer on which the settings differ. -/
theorem zpNextFollowsTheParameter : Obligations.ZpNextFollowsTheParameter := fun p =>
  ⟨zpNext_wrap p, zpNext_linear p, zpNext_below .fault, zpNext_fault_at_ff,
    fun h one other => (zpNext_below one h).trans (zpNext_below other h).symm⟩

theorem carry16_wrap (sum : Nat) : carry16 .wrap sum = .ok (BitVec.ofNat 16 (sum % 65536)) := by
  refine congrArg Except.ok (BitVec.eq_of_toNat_eq ?_)
  simp

theorem carry16_fault_above {sum : Nat} (h : 0xFFFF < sum) : carry16 .fault sum = .error .eaCarryOut :=
  if_neg (by omega)

/-- Settles O25: up to 0xFFFF every setting answers the sum. -/
theorem carry16FollowsTheParameter : Obligations.Carry16FollowsTheParameter := by
  refine fun sum => ⟨carry16_wrap sum, fun h => ?_, carry16_fault_above⟩
  have hfault : carry16 .fault sum = .ok (BitVec.ofNat 16 sum) := carry16_settled (.inr h)
  exact ⟨hfault, hfault.trans (carry16_settled (.inl rfl)).symm⟩

/-! When the resolver refuses. -/

section
variable {s : State} {r : Refusal}

/-- An indexed address is refused only for its carry out, under EA_CARRY_OUT = fault (R82). -/
theorem indexedFrom_error {base : Word} {index : Byte} {cycles : Nat} (h : indexedFrom base index cycles s = .error r) :
    s.params.eaCarryOut = .fault ∧ 0xFFFF < base.toNat + index.toNat ∧ r = .eaCarryOut := by
  unfold indexedFrom at h
  split at h
  · cases h
    exact carry16_error ‹_›
  · cases h

/-- A pointer is refused only at 0xFF, under ZP_POINTER_WRAP = fault (R81). -/
theorem pointerAt_error {p : Byte} (h : pointerAt p s = .error r) :
    s.params.zpPointerWrap = .fault ∧ p = 0xFF ∧ r = .zpPointerAtFF := by
  unfold pointerAt at h
  split at h
  · cases h
    exact zpNext_error ‹_›
  · cases h

theorem indexedIndirect_error {zz : Byte} (h : indexedIndirect zz s = .error r) :
    pointerAt (zpIndexed zz s.x) s = .error r := by
  unfold indexedIndirect at h
  split at h
  · cases h
    assumption
  · cases h

theorem indirectIndexed_error {zz : Byte} (h : indirectIndexed zz s = .error r) :
    pointerAt zz s = .error r ∨ ∃ base, pointerAt zz s = .ok base ∧ indexedFrom base s.y 4 s = .error r := by
  unfold indirectIndexed at h
  split at h
  · cases h
    exact .inl ‹_›
  · exact .inr ⟨_, ‹_›, h⟩

end

/-- The mode of the table (R60) that a resolved operand belongs to. -/
def AddrMode.mode : AddrMode → Mode
  | .zeroPage _ => .zeroPage
  | .zeroPageX _ => .zeroPageIndexedX
  | .zeroPageY _ => .zeroPageIndexedY
  | .absolute _ => .absolute
  | .absoluteX _ => .absoluteIndexedX
  | .absoluteY _ => .absoluteIndexedY
  | .indexedIndirectX _ => .indexedIndirectX
  | .indirectIndexedY _ => .indirectIndexedY

theorem mode_of_instrAddrMode {i : Instr} {m : AddrMode} (h : instrAddrMode i = some m) : m.mode = i.mode := by
  cases i <;> cases h <;> rfl

/-- A refusal `r` at `s` that R96 allows in a mode: of the carry out in a mode with an indexed sum, or of the pointer in
an indirect mode, under the parameter's setting `fault`. -/
def FaultSettingRefuses (mode : Mode) (s : State) (r : Refusal) : Prop :=
  (r = .eaCarryOut ∧ s.params.eaCarryOut = .fault ∧ mode.pageCrossExtra = true) ∨
  (r = .zpPointerAtFF ∧ s.params.zpPointerWrap = .fault ∧ (mode = .indexedIndirectX ∨ mode = .indirectIndexedY))

section
variable {s : State} {r : Refusal} {mode : Mode}

theorem faultSettingRefuses_of_indexedFrom {base : Word} {index : Byte} {cycles : Nat}
    (hmode : mode.pageCrossExtra = true) (h : indexedFrom base index cycles s = .error r) :
    FaultSettingRefuses mode s r := by
  obtain ⟨hset, -, hr⟩ := indexedFrom_error h
  exact .inl ⟨hr, hset, hmode⟩

theorem faultSettingRefuses_of_pointerAt {p : Byte} (hmode : mode = .indexedIndirectX ∨ mode = .indirectIndexedY)
    (h : pointerAt p s = .error r) : FaultSettingRefuses mode s r := by
  obtain ⟨hset, -, hr⟩ := pointerAt_error h
  exact .inr ⟨hr, hset, hmode⟩

/-- The resolver refuses only where R96 says: the modes with neither an indexed sum nor a pointer always have an
address. -/
theorem effectiveAddress_error {m : AddrMode} (h : effectiveAddress m s = .error r) :
    FaultSettingRefuses m.mode s r := by
  cases m with
  | zeroPage _ | zeroPageX _ | zeroPageY _ | absolute _ => cases h
  | absoluteX base | absoluteY base => exact faultSettingRefuses_of_indexedFrom rfl h
  | indexedIndirectX zz => exact faultSettingRefuses_of_pointerAt (.inl rfl) (indexedIndirect_error h)
  | indirectIndexedY zz =>
    rcases indirectIndexed_error h with hptr | ⟨base, -, hsum⟩
    · exact faultSettingRefuses_of_pointerAt (.inr rfl) hptr
    · exact faultSettingRefuses_of_indexedFrom rfl hsum

end

/-- An instruction completes, or its address is refused and it is refused for the same reason. -/
theorem exec_next_or_refused (i : Instr) (s : State) :
    (∃ t, exec i s = .next t) ∨
    ∃ m r, instrAddrMode i = some m ∧ effectiveAddress m s = .error r ∧ exec i s = .refused r := by
  rcases exec_cases i with ⟨-, -, -, _, v, -, hexec⟩ | ⟨m, hm, -, -, hexec⟩ | ⟨m, hm, -, -, hexec⟩
  · exact .inl ⟨_, hexec s⟩
  · rw [hexec]
    cases he : effectiveAddress m s with
    | ok e => exact .inl ⟨_, load_of_effectiveAddress _ he⟩
    | error r => exact .inr ⟨m, r, hm, he, by simp [load, he]⟩
  · rw [hexec]
    cases he : effectiveAddress m s with
    | ok e => exact .inl ⟨_, store_of_effectiveAddress _ he⟩
    | error r => exact .inr ⟨m, r, hm, he, by simp [store, he]⟩

/-- Settles O27: an instruction is refused with its address alone, and an address only under a fault setting. -/
theorem onlyFaultSettingsRefuse : Obligations.OnlyFaultSettingsRefuse := by
  intro i s
  rcases exec_next_or_refused i s with hnext | ⟨m, r, hm, he, hexec⟩
  · exact .inl hnext
  · have hrefuses := effectiveAddress_error he
    rw [mode_of_instrAddrMode hm] at hrefuses
    rcases hrefuses with ⟨rfl, hset, hmode⟩ | ⟨rfl, hset, hmode⟩
    · exact .inr (.inl ⟨hexec, hset, hmode⟩)
    · exact .inr (.inr ⟨hexec, hset, hmode⟩)

end Sys2Proof.Machine

namespace Sys2Proof.Machine

/-! PROOFS. The execution engine family (spec 41_execution_engine.md): the budget loop as equations, what a call charges,
the loop as a run of steps, and the halted machine. -/

/-! The equations of `execute`. -/

/-- R101: a halted machine runs nothing, whatever the budget. -/
theorem execute_halted {s : State} (h : s.halt ≠ .running) (budget : Int) : execute budget s = .next s :=
  executeLoop_halted s h _ budget

/-- R102: without a positive budget nothing runs. -/
theorem execute_nonpos {budget : Int} (s : State) (h : budget ≤ 0) : execute budget s = .next s :=
  executeLoop_nonpos s _ budget h

section
variable {budget : Int} {s : State} (hb : 0 < budget) (hr : s.halt = .running)
include hb hr

theorem executeLoop_succ_next {t : State} (h : step s = .next t) (fuel : Nat) :
    executeLoop (fuel + 1) budget s = executeLoop fuel (budget - ((t.cyc : Int) - s.cyc)) t := by
  simp [executeLoop, hb, hr, h]

theorem executeLoop_succ_refused {r : Refusal} (h : step s = .refused r) (fuel : Nat) :
    executeLoop (fuel + 1) budget s = .refused r := by
  simp [executeLoop, hb, hr, h]

/-- R102, R108: after one instruction the call goes on with the budget less the cycles charged. -/
theorem execute_of_step_next {t : State} (h : step s = .next t) :
    execute budget s = execute (budget - ((t.cyc : Int) - s.cyc)) t := by
  obtain ⟨hcharged, -, -⟩ := step_cyc_running hr h
  obtain ⟨fuel, hfuel⟩ : ∃ fuel, budget.toNat = fuel + 1 := ⟨budget.toNat - 1, by omega⟩
  calc execute budget s
    _ = executeLoop (fuel + 1) budget s := by rw [execute, hfuel]
    _ = executeLoop fuel (budget - ((t.cyc : Int) - s.cyc)) t := executeLoop_succ_next hb hr h fuel
    _ = execute (budget - ((t.cyc : Int) - s.cyc)) t := executeLoop_fuel _ _ _ _ (by omega) le_rfl

theorem execute_of_step_refused {r : Refusal} (h : step s = .refused r) : execute budget s = .refused r := by
  obtain ⟨fuel, hfuel⟩ : ∃ fuel, budget.toNat = fuel + 1 := ⟨budget.toNat - 1, by omega⟩
  rw [execute, hfuel]
  exact executeLoop_succ_refused hb hr h fuel

/-- The call ends with the instruction that halts. -/
theorem execute_of_step_halts {t : State} (h : step s = .next t) (ht : t.halt ≠ .running) :
    execute budget s = .next t := by
  rw [execute_of_step_next hb hr h, execute_halted ht]

/-- A call that ends has run a first instruction, and the rest of the call went on from there. -/
theorem execute_next {t : State} (h : execute budget s = .next t) :
    ∃ u, step s = .next u ∧ execute (budget - ((u.cyc : Int) - s.cyc)) u = .next t := by
  cases hs : step s with
  | next u => exact ⟨u, rfl, execute_of_step_next hb hr hs ▸ h⟩
  | fault r => cases r
  | refused r => rw [execute_of_step_refused hb hr hs] at h; cases h

end

/-! The cycles of a call. -/

/-- Settles O38, by induction on the budget: the last instruction starts with at least 1 cycle of budget left and charges
at most 6, and exactly 1 if it halts. -/
theorem budgetOvershootIsAtMostFive : Obligations.BudgetOvershootIsAtMostFive := by
  intro budget s t hb hr h
  induction hn : budget.toNat using Nat.strong_induction_on generalizing budget s with
  | _ n ih =>
    obtain ⟨u, hu, hrest⟩ := execute_next hb hr h
    obtain ⟨hmin, hmax, hhalts⟩ := step_cyc_running hr hu
    by_cases hur : u.halt = .running
    · by_cases hleft : 0 < budget - ((u.cyc : Int) - s.cyc)
      · obtain ⟨hruns, hends⟩ := ih _ (by omega) _ u hleft hur hrest rfl
        exact ⟨fun ht => by have := hruns ht; omega, fun ht => by have := hends ht; omega⟩
      · rw [execute_nonpos u (by omega)] at hrest
        cases hrest
        exact ⟨fun _ => by omega, fun ht => absurd hur ht⟩
    · rw [execute_halted hur] at hrest
      cases hrest
      have hone := hhalts hur
      exact ⟨fun ht => absurd ht hur, fun _ => by omega⟩

/-! The loop as a run of steps. -/

section
variable {M : Host.Core} {s : M.State}

theorem run_succ_next {t : M.State} (h : M.step s = .next t) (k : Nat) : M.run (k + 1) s = M.run k t := by
  rw [Host.Core.run, h]

theorem run_succ_refused {r : M.Refusal} (h : M.step s = .refused r) (k : Nat) : M.run (k + 1) s = .refused r := by
  rw [Host.Core.run, h]

end

/-- The loop runs at most as many steps as it has fuel, and ends as they do. -/
theorem executeLoop_is_run (fuel : Nat) (budget : Int) (s : State) :
    ∃ k ≤ fuel, executeLoop fuel budget s = Host.Core.run core k s := by
  induction fuel generalizing budget s with
  | zero => exact ⟨0, le_rfl, rfl⟩
  | succ fuel ih =>
    by_cases hb : 0 < budget
    · by_cases hr : s.halt = .running
      · cases hs : step s with
        | next t =>
          obtain ⟨k, hk, hrun⟩ := ih (budget - ((t.cyc : Int) - s.cyc)) t
          have hloop := executeLoop_succ_next hb hr hs fuel
          have hsteps := run_succ_next (M := core) hs k
          exact ⟨k + 1, by omega, hloop.trans (hrun.trans hsteps.symm)⟩
        | fault r => cases r
        | refused r =>
          have hloop := executeLoop_succ_refused hb hr hs fuel
          have hsteps := run_succ_refused (M := core) hs 0
          exact ⟨1, by omega, hloop.trans hsteps.symm⟩
      · exact ⟨0, by omega, executeLoop_halted s hr _ _⟩
    · exact ⟨0, by omega, executeLoop_nonpos s _ _ (by omega)⟩

/-- Settles O40: the loop's fuel is the budget. -/
theorem executeIsARunOfSteps : Obligations.ExecuteIsARunOfSteps :=
  fun budget s => executeLoop_is_run budget.toNat budget s

/-! The loop's passes. -/

/-- Settles O37: each clause is an equation of `execute`. -/
theorem executeLoopsWhileBudgetPositive : Obligations.ExecuteLoopsWhileBudgetPositive := by
  refine fun budget s => ⟨execute_nonpos s, fun hb hr => ⟨fun t ht => ?_, fun t ht hhalt => ?_, fun r hrefused => ?_⟩⟩
  · exact execute_of_step_next hb hr ht
  · exact execute_of_step_halts hb hr ht hhalt
  · exact execute_of_step_refused hb hr hrefused

/-- Settles O39: an instruction charges at least the one cycle, so no second one starts; a halted machine does nothing
either way. -/
theorem executeOneIsOneStep : Obligations.ExecuteOneIsOneStep := by
  intro s
  by_cases hr : s.halt = .running
  · cases hs : step s with
    | next t =>
      obtain ⟨hcharged, -, -⟩ := step_cyc_running hr hs
      rw [execute_of_step_next one_pos hr hs, execute_nonpos t (by omega)]
    | fault r => cases r
    | refused r => exact execute_of_step_refused one_pos hr hs
  · rw [execute_halted hr, step_halted hr]

/-! The halted machine. -/

/-- R162, written out: PC one on, one cycle, B and HALT. -/
theorem takeUnrecognizedOpcode_eq (s : State) (op : Byte) :
    s.takeUnrecognizedOpcode op = { ranOn 1 1 s with flagB := true, halt := .halted op s.pc } := by
  simp only [ranOn, ← word_add_ofNat]
  rfl

/-- Settles O8: the byte has no row, so the fetch finds no instruction and the step takes UnrecognizedOpcode. -/
theorem unrecognizedOpcodeIsTaken : Obligations.UnrecognizedOpcodeIsTaken := by
  intro s t hr hrow ht
  have hf : fetchInstr s = none := fetchInstr_none s hrow
  have hstep : step s = .next t := by rw [step_unrecognized hr hf, takeUnrecognizedOpcode_eq, ht]; rfl
  have hhalt : t.halt ≠ .running := by simp [ht]
  exact ⟨hstep, stepAccesses_unrecognized hr hf, fun _ hb => execute_of_step_halts hb hr hstep hhalt,
    execute_halted hhalt⟩

/-- Settles O9: neither the loop nor the step fetches when halted. -/
theorem haltedMachineDoesNothing : Obligations.HaltedMachineDoesNothing := by
  intro s op addr h
  have hhalt : s.halt ≠ .running := by simp [h]
  exact ⟨execute_halted hhalt, step_halted hhalt, stepAccesses_halted hhalt⟩

/-- A host operation other than `reset()` keeps HALT of a halted machine. -/
theorem hostStep_keeps_halted {op : HostOp} {s t : State} {r : HostReply} (hop : op ≠ .reset)
    (hs : s.halt ≠ .running) (h : hostStep op s = .next (t, r)) : t.halt = s.halt := by
  rcases hostStep_next h with ⟨rfl, -⟩ | ⟨budget, -, he⟩ | ⟨addr, v, -, rfl⟩ | ⟨l, -, rfl⟩ | rfl
  · exact absurd rfl hop
  · rw [execute_halted hs] at he
    cases he
    rfl
  · exact memWrite_halt s addr _
  · exact loadState_halt s l
  · rfl

/-- Settles O10: `reset()` writes HALT and every flag; of the other operations `load_state` writes B, and none HALT. -/
theorem onlyResetLeavesHalted : Obligations.OnlyResetLeavesHalted := by
  refine ⟨fun op s t r => hostStep_keeps_halted, fun budget s h => ⟨execute_halted h budget, step_halted h⟩,
    fun s => ⟨s.resetOp, rfl, rfl, rfl, rfl, rfl, rfl, rfl, rfl, rfl⟩,
    fun l s => ⟨loadState l s, rfl, rfl, fun hB => ?_⟩⟩
  rw [loadState_flagB, hB]
  rfl

/-! The cycles of an instruction. -/

/-- The page-crossing cycle of the resolver is the low byte's carry (R83). -/
theorem pageCross_eq_crossing (base : Word) (index : Byte) :
    pageCross base (base.toNat + index.toNat) = crossing base.toNat index := by
  have hle := pageCross_le_one base (base.toNat + index.toNat)
  have hiff := pageCross_eq_one_iff_carry (base := base) (index := index)
  unfold crossing
  split <;> omega

/-- An indexed address charges the mode's cycles and the crossing. -/
theorem indexedFrom_extra {base : Word} {index : Byte} {cycles : Nat} {s : State} {e : EffAddr}
    (h : indexedFrom base index cycles s = .ok e) : e.extra = cycles + crossing base.toNat index := by
  obtain ⟨-, hextra, -⟩ := indexedFrom_ok h
  rw [hextra, pageCross_eq_crossing]

/-- The resolver's cycles and the opcode fetch's are the mode's total of R94. -/
theorem effectiveAddress_cycles {m : AddrMode} {s : State} {e : EffAddr} (h : effectiveAddress m s = .ok e) :
    1 + e.extra = m.mode.baseCycles + modeCrossing (some m) s := by
  cases m with
  | zeroPage _ | zeroPageX _ | zeroPageY _ | absolute _ => cases h; rfl
  | absoluteX base | absoluteY base =>
    simp only [AddrMode.mode, Mode.baseCycles, modeCrossing, indexedFrom_extra h]
    omega
  | indexedIndirectX zz =>
    simp only [effectiveAddress, indexedIndirect] at h
    split at h
    · cases h
    · cases h; rfl
  | indirectIndexedY zz =>
    simp only [effectiveAddress, indirectIndexed] at h
    split at h
    · cases h
    · rename_i base hbase
      simp only [AddrMode.mode, Mode.baseCycles, modeCrossing, hbase, indexedFrom_extra h]
      omega

theorem mode_of_instrAddrMode_none {i : Instr} (h : instrAddrMode i = none) : i.mode = .immediate := by
  cases i <;> cases h <;> rfl

/-- An instruction charges its mode's base cycles and the page crossing (R94, R110). -/
theorem exec_cyc {i : Instr} {s t : State} (h : exec i s = .next t) :
    t.cyc = s.cyc + (i.mode.baseCycles + modeCrossing (instrAddrMode i) s) := by
  rcases exec_cases i with ⟨hn, -, -, op, v, -, he⟩ | ⟨m, hm, -, -, he⟩ | ⟨m, hm, -, -, he⟩
  · rw [he] at h
    cases h
    rw [hn, mode_of_instrAddrMode_none hn]
    simp [finishLoad, Mode.baseCycles, modeCrossing]
  · obtain ⟨e, hea, rfl⟩ := load_next (he s ▸ h)
    rw [hm, ← mode_of_instrAddrMode hm, ← effectiveAddress_cycles hea]
    simp [finishLoad]
  · obtain ⟨e, hea, rfl⟩ := store_next (he s ▸ h)
    rw [hm, ← mode_of_instrAddrMode hm, ← effectiveAddress_cycles hea]
    simp

/-- An instruction charges 2 to 6 cycles (R110). -/
theorem exec_cyc_bounds {i : Instr} {s t : State} (h : exec i s = .next t) :
    s.cyc + 2 ≤ t.cyc ∧ t.cyc ≤ s.cyc + 6 := by
  rcases exec_next h with ⟨v, extra, -, hmin, hmax, rfl, -⟩ | ⟨m, e, -, -, hea, rfl⟩
  · simp only [finishLoad, setZN_cyc, setReg_cyc, charge_cyc, advancePc_cyc]
    omega
  · have := effectiveAddress_extra hea
    simp only [memWrite_cyc, charge_cyc, advancePc_cyc]
    omega

/-- Only the three modes of R84 can have a page crossing. -/
theorem modeCrossing_eq_zero {i : Instr} (h : i.mode.pageCrossExtra = false) (s : State) :
    modeCrossing (instrAddrMode i) s = 0 := by
  cases hm : instrAddrMode i with
  | none => rfl
  | some m =>
    rw [← mode_of_instrAddrMode hm] at h
    cases m with
    | zeroPage _ | zeroPageX _ | zeroPageY _ | absolute _ | indexedIndirectX _ => rfl
    | absoluteX _ | absoluteY _ | indirectIndexedY _ => cases h

/-- The table has the row of every instruction (R64). -/
theorem descriptor_in_table (i : Instr) : Laws.DescriptorInTable.Statement i := by
  cases i <;> exact ⟨rfl, _, _, rfl, rfl⟩

/-- The row of an instruction's opcode byte holds its descriptor and its mode's page-crossing mark. -/
theorem row_of_encode {i : Instr} {op : Byte} {operands : List Byte} {row : OpcodeRow}
    (henc : encode i = op :: operands) (hrow : opcodeRow op = some row) :
    row.descriptor = i.descriptor ∧ row.pageCrossExtra = i.mode.pageCrossExtra := by
  obtain ⟨-, op', operands', henc', hrow'⟩ := descriptor_in_table i
  obtain ⟨rfl, -⟩ := List.cons.inj (henc.symm.trans henc')
  obtain rfl := Option.some.inj (hrow.symm.trans hrow')
  exact ⟨rfl, rfl⟩

/-- Settles O31: the row holds the mode's base cycles and mark, and UnrecognizedOpcode charges the opcode fetch alone. -/
theorem cyclesCharged : Obligations.CyclesCharged := by
  refine ⟨fun i s t op operands row h henc hrow => ?_, fun s t hr hrow h => ?_⟩
  · obtain ⟨hdesc, hmark⟩ := row_of_encode henc hrow
    rw [hdesc, hmark]
    exact ⟨exec_cyc h, fun hno => modeCrossing_eq_zero hno s, exec_cyc_bounds h⟩
  · rw [step_unrecognized hr (fetchInstr_none s hrow)] at h
    cases h
    exact takeUnrecognizedOpcode_cyc s _

end Sys2Proof.Machine

namespace Sys2Proof.Machine

/-! PROOFS. The load family (spec 42_load.md): the addresses and cycles of the modes in the spec's numbers, when the
resolver refuses, and what each load does and leaves alone. -/

/-! An instruction that completes. -/

/-- An instruction completes on a running machine as it does on its own: the fetch reads it back from its bytes. -/
theorem completesAs_of_exec {i : Instr} {bytes : List Byte} {s t : State} (hbytes : encode i = bytes)
    (hexec : exec i s = .next t) : CompletesAs i bytes s t := by
  refine ⟨hbytes, hexec, fun hrun hpc => ?_⟩
  subst hbytes
  rw [step_instr hrun (fetchInstr_of_encode i s hpc), hexec]

/-- The two operand bytes of a word given by its bytes (R62). -/
theorem operand_bytes {l h : Byte} {w : Word} (hw : w = BitVec.ofNat 16 (h.toNat * 256 + l.toNat)) :
    loByte w = l ∧ hiByte w = h := by
  subst hw
  exact ⟨loByte_le16 l h, hiByte_le16 l h⟩

/-! The modes in the spec's numbers. -/

theorem zpAddr_toNat (zz : Byte) : zpAddr zz.toNat = zext16 zz := by
  rw [zpAddr, zext16, Nat.mod_eq_of_lt zz.isLt]

theorem zpAddr_add (zz index : Byte) : zpAddr (zz.toNat + index.toNat) = zext16 (zpIndexed zz index) := by
  rw [zpAddr, zext16, zpIndexed_toNat]

/-- A mode whose effective address is `addr`, in an instruction of `cycles` cycles with the opcode
fetch's (R80, R94). -/
def ResolvesTo (m : AddrMode) (s : State) (addr : Word) (cycles : Nat) : Prop :=
  ∃ e, effectiveAddress m s = .ok e ∧ e.addr = addr ∧ 1 + e.extra = cycles

section
variable {s : State} {zz : Byte} {base : Word}

theorem zeroPage_resolvesTo : ResolvesTo (.zeroPage zz) s (zpAddr zz.toNat) 3 :=
  ⟨_, rfl, (zpAddr_toNat zz).symm, rfl⟩

theorem zeroPageX_resolvesTo : ResolvesTo (.zeroPageX zz) s (zpAddr (zz.toNat + s.x.toNat)) 4 :=
  ⟨_, rfl, (zpAddr_add zz s.x).symm, rfl⟩

theorem zeroPageY_resolvesTo : ResolvesTo (.zeroPageY zz) s (zpAddr (zz.toNat + s.y.toNat)) 4 :=
  ⟨_, rfl, (zpAddr_add zz s.y).symm, rfl⟩

theorem absolute_resolvesTo : ResolvesTo (.absolute base) s base 4 := ⟨_, rfl, rfl, rfl⟩

/-- The indexed sum where the spec settles it, with the crossing's cycle (R82, R83). -/
theorem indexedFrom_carrySettled {index : Byte} (cycles : Nat) (h : carrySettled (base.toNat + index.toNat) s) :
    indexedFrom base index cycles s =
      .ok { addr := BitVec.ofNat 16 (base.toNat + index.toNat), extra := cycles + crossing base.toNat index } := by
  rw [indexedFrom_settled cycles h, pageCross_eq_crossing]

/-- A mode with an indexed sum, whose cycles are the opcode fetch's, its own and the crossing's. -/
theorem resolvesTo_of_indexedFrom {m : AddrMode} {index : Byte} (cycles : Nat)
    (hm : effectiveAddress m s = indexedFrom base index cycles s) (h : carrySettled (base.toNat + index.toNat) s) :
    ResolvesTo m s (BitVec.ofNat 16 (base.toNat + index.toNat)) (1 + cycles + crossing base.toNat index) :=
  ⟨_, hm.trans (indexedFrom_carrySettled cycles h), rfl, (Nat.add_assoc ..).symm⟩

theorem absoluteX_resolvesTo (h : carrySettled (base.toNat + s.x.toNat) s) :
    ResolvesTo (.absoluteX base) s (BitVec.ofNat 16 (base.toNat + s.x.toNat)) (4 + crossing base.toNat s.x) :=
  resolvesTo_of_indexedFrom 3 rfl h

theorem absoluteY_resolvesTo (h : carrySettled (base.toNat + s.y.toNat) s) :
    ResolvesTo (.absoluteY base) s (BitVec.ofNat 16 (base.toNat + s.y.toNat)) (4 + crossing base.toNat s.y) :=
  resolvesTo_of_indexedFrom 3 rfl h

/-- A pointer as the number its two bytes make (R45). -/
theorem pointerAt_pointerValue {p : Byte} {high : Word} (h : zpNext s.params.zpPointerWrap p = .ok high) :
    pointerAt p s = .ok (BitVec.ofNat 16 (pointerValue p high s)) := by
  rw [pointerAt_of_zpNext h, pointerValue, zpAddr_toNat]
  rfl

theorem pointerValue_lt (p : Byte) (high : Word) (s : State) : pointerValue p high s < 65536 := by
  have hlow := (s.mem.read (zpAddr p.toNat)).isLt
  have hhigh := (s.mem.read high).isLt
  unfold pointerValue
  omega

theorem indexedIndirectX_resolvesTo {ptr : Byte} {high : Word} (hptr : ptr = zpIndexed zz s.x)
    (h : zpNext s.params.zpPointerWrap ptr = .ok high) :
    ResolvesTo (.indexedIndirectX zz) s (BitVec.ofNat 16 (pointerValue ptr high s)) 6 := by
  subst hptr
  have hea : indexedIndirect zz s = .ok ⟨BitVec.ofNat 16 (pointerValue (zpIndexed zz s.x) high s), 5⟩ := by
    simp [indexedIndirect, pointerAt_pointerValue h]
  exact ⟨_, hea, rfl, rfl⟩

/-- Mode IndirectIndexedY adds Y to the pointer that ZpNext settles. -/
theorem indirectIndexed_of_zpNext {high : Word} (h : zpNext s.params.zpPointerWrap zz = .ok high) :
    indirectIndexed zz s = indexedFrom (BitVec.ofNat 16 (pointerValue zz high s)) s.y 4 s := by
  rw [indirectIndexed, pointerAt_pointerValue h]

/-- The pointer as a word has the pointer's value. -/
theorem pointerValue_toNat (p : Byte) (high : Word) (s : State) :
    (BitVec.ofNat 16 (pointerValue p high s)).toNat = pointerValue p high s :=
  Nat.mod_eq_of_lt (pointerValue_lt p high s)

theorem indirectIndexedY_resolvesTo {high : Word} (h : zpNext s.params.zpPointerWrap zz = .ok high)
    (hsum : carrySettled (pointerValue zz high s + s.y.toNat) s) :
    ResolvesTo (.indirectIndexedY zz) s (BitVec.ofNat 16 (pointerValue zz high s + s.y.toNat))
      (5 + crossing (pointerValue zz high s) s.y) := by
  rw [← pointerValue_toNat] at hsum ⊢
  exact resolvesTo_of_indexedFrom 4 (indirectIndexed_of_zpNext h) hsum

end

/-! The modes that refuse. -/

section
variable {s : State} {zz : Byte} {base : Word}

theorem indexedFrom_carryRefused {index : Byte} (cycles : Nat) (h : carryRefused (base.toNat + index.toNat) s) :
    indexedFrom base index cycles s = .error .eaCarryOut := by
  obtain ⟨hset, hsum⟩ := h
  rw [indexedFrom, hset, carry16_fault_above hsum]

theorem pointerAt_at_ff {p : Byte} (hp : p = 0xFF) (h : s.params.zpPointerWrap = .fault) :
    pointerAt p s = .error .zpPointerAtFF := by
  subst hp
  rw [pointerAt, h, zpNext_fault_at_ff rfl]

theorem indexedIndirect_at_ff (hp : zpIndexed zz s.x = 0xFF) (h : s.params.zpPointerWrap = .fault) :
    indexedIndirect zz s = .error .zpPointerAtFF := by
  rw [indexedIndirect, pointerAt_at_ff hp h]

theorem indirectIndexed_at_ff (hp : zz = 0xFF) (h : s.params.zpPointerWrap = .fault) :
    indirectIndexed zz s = .error .zpPointerAtFF := by
  rw [indirectIndexed, pointerAt_at_ff hp h]

theorem indirectIndexed_carryRefused {high : Word} (h : zpNext s.params.zpPointerWrap zz = .ok high)
    (hsum : carryRefused (pointerValue zz high s + s.y.toNat) s) : indirectIndexed zz s = .error .eaCarryOut := by
  rw [← pointerValue_toNat] at hsum
  rw [indirectIndexed_of_zpNext h, indexedFrom_carryRefused 4 hsum]

end

/-! What a load does. -/

/-- The state after a load of `v` into `r` (R120), for the three registers at once: `loadedA`, `loadedX`,
`loadedY`. -/
def loadedInto (r : Reg) (v : Byte) (len cycles : Nat) (s : State) : State :=
  match r with
  | .a => loadedA v len cycles s
  | .x => loadedX v len cycles s
  | .y => loadedY v len cycles s

/-- The end of a load is R120's next state. -/
theorem finishLoad_eq_loadedInto (r : Reg) (v : Byte) (len extra : Nat) (s : State) :
    finishLoad r v len extra s = loadedInto r v len (1 + extra) s := by
  rw [finishLoad, setZN, zeroOf_eq, negativeOf_eq, State.advancePc, word_add_ofNat]
  cases r <;> rfl

theorem loadImmediate_next (r : Reg) (v : Byte) (s : State) :
    loadImmediate r v s = .next (loadedInto r v 2 2 s) := by
  rw [loadImmediate, finishLoad_eq_loadedInto]

/-- A load from memory loads the byte at its mode's address and takes its mode's cycles. -/
theorem load_next_of_resolvesTo {m : AddrMode} {s : State} {addr : Word} {cycles : Nat} (r : Reg)
    (h : ResolvesTo m s addr cycles) : load r m s = .next (loadedInto r (s.mem.read addr) m.length cycles s) := by
  obtain ⟨e, he, rfl, rfl⟩ := h
  rw [load_of_effectiveAddress r he, finishLoad_eq_loadedInto]

theorem load_refused {m : AddrMode} {s : State} {reason : Refusal} (r : Reg)
    (h : effectiveAddress m s = .error reason) : load r m s = .refused reason := by
  rw [load, h]

/-! The results of the 18 loads, by mode. -/

/-- Settles O11: the operand byte is the value, and the two bytes of the instruction are all that is read. -/
theorem loadImmediateResults : Obligations.LoadImmediateResults := fun s v =>
  ⟨completesAs_of_exec rfl (loadImmediate_next .a v s), completesAs_of_exec rfl (loadImmediate_next .x v s),
    completesAs_of_exec rfl (loadImmediate_next .y v s), instrAccesses_immediate rfl, instrAccesses_immediate rfl,
    instrAccesses_immediate rfl⟩

/-- Settles O12: an operand byte is its own zero-page address. -/
theorem loadZeroPageResults : Obligations.LoadZeroPageResults := fun _ _ =>
  ⟨completesAs_of_exec rfl (load_next_of_resolvesTo .a zeroPage_resolvesTo),
    completesAs_of_exec rfl (load_next_of_resolvesTo .x zeroPage_resolvesTo),
    completesAs_of_exec rfl (load_next_of_resolvesTo .y zeroPage_resolvesTo)⟩

/-- Settles O13: the byte sum and the sum modulo 256 are one address. -/
theorem loadZeroPageIndexedResults : Obligations.LoadZeroPageIndexedResults := fun _ _ =>
  ⟨completesAs_of_exec rfl (load_next_of_resolvesTo .a zeroPageX_resolvesTo),
    completesAs_of_exec rfl (load_next_of_resolvesTo .x zeroPageY_resolvesTo),
    completesAs_of_exec rfl (load_next_of_resolvesTo .y zeroPageX_resolvesTo)⟩

/-- Settles O14: the operand's two bytes, low byte first, are the encoding's. -/
theorem loadAbsoluteResults : Obligations.LoadAbsoluteResults := by
  intro s l h addr haddr
  obtain ⟨rfl, rfl⟩ := operand_bytes haddr
  exact ⟨completesAs_of_exec rfl (load_next_of_resolvesTo .a absolute_resolvesTo),
    completesAs_of_exec rfl (load_next_of_resolvesTo .x absolute_resolvesTo),
    completesAs_of_exec rfl (load_next_of_resolvesTo .y absolute_resolvesTo)⟩

/-- Settles O15: the resolver answers exactly where the carry is settled. -/
theorem loadAbsoluteIndexedResults : Obligations.LoadAbsoluteIndexedResults := by
  intro s l h base hbase
  obtain ⟨rfl, rfl⟩ := operand_bytes hbase
  refine ⟨fun hx => ?_, fun hy => ?_, fun hx => ?_, fun hy => ?_⟩
  · exact ⟨completesAs_of_exec rfl (load_next_of_resolvesTo .a (absoluteX_resolvesTo hx)),
      completesAs_of_exec rfl (load_next_of_resolvesTo .y (absoluteX_resolvesTo hx))⟩
  · exact ⟨completesAs_of_exec rfl (load_next_of_resolvesTo .a (absoluteY_resolvesTo hy)),
      completesAs_of_exec rfl (load_next_of_resolvesTo .x (absoluteY_resolvesTo hy))⟩
  · have hrefused : effectiveAddress (.absoluteX base) s = .error .eaCarryOut := indexedFrom_carryRefused 3 hx
    exact ⟨load_refused .a hrefused, load_refused .y hrefused⟩
  · have hrefused : effectiveAddress (.absoluteY base) s = .error .eaCarryOut := indexedFrom_carryRefused 3 hy
    exact ⟨load_refused .a hrefused, load_refused .x hrefused⟩

/-- Settles O16: ZpNext alone decides whether the pointer has an address. -/
theorem loadIndexedIndirectResults : Obligations.LoadIndexedIndirectResults := by
  intro s zz ptr hptr
  refine ⟨fun high hhigh => ?_, fun hff hset => ?_⟩
  · exact completesAs_of_exec rfl (load_next_of_resolvesTo .a (indexedIndirectX_resolvesTo hptr hhigh))
  · exact load_refused .a (indexedIndirect_at_ff (hptr.symm.trans hff) hset)

/-- Settles O17: ZpNext decides the pointer, then Carry16 the sum. -/
theorem loadIndirectIndexedResults : Obligations.LoadIndirectIndexedResults := by
  intro s zz
  refine ⟨?_, fun hff hset => load_refused .a (indirectIndexed_at_ff hff hset)⟩
  rintro high _ hhigh rfl
  refine ⟨fun hsum => ?_, fun hsum => ?_⟩
  · exact completesAs_of_exec rfl (load_next_of_resolvesTo .a (indirectIndexedY_resolvesTo hhigh hsum))
  · exact load_refused .a (indirectIndexed_carryRefused hhigh hsum)

/-! The frame of a load. -/

section
variable (r : Reg) (v : Byte) (len cycles : Nat) (s : State)

theorem loadedInto_flagZ : (loadedInto r v len cycles s).flagZ = decide (v.toNat = 0) := by cases r <;> rfl

theorem loadedInto_flagN : (loadedInto r v len cycles s).flagN = decide (128 ≤ v.toNat) := by cases r <;> rfl

theorem loadedInto_pc : (loadedInto r v len cycles s).pc = BitVec.ofNat 16 (s.pc.toNat + len) := by cases r <;> rfl

theorem loadedInto_mem : (loadedInto r v len cycles s).mem = s.mem := by cases r <;> rfl

end

/-- What a load that answers a next state has loaded: its immediate operand, or the byte at its effective address. -/
theorem exec_load_next {i : Instr} {s t : State} (hload : isStore i.mnemonic = false) (h : exec i s = .next t) :
    ∃ v cycles, t = loadedInto (mnemonicReg i.mnemonic) v i.length cycles s ∧
      ((∃ op, instrAddrMode i = none ∧ encode i = [op, v]) ∨
        ∃ m e, instrAddrMode i = some m ∧ effectiveAddress m s = .ok e ∧ v = s.mem.read e.addr) := by
  rcases exec_next h with ⟨v, extra, -, -, -, rfl, hv⟩ | ⟨m, e, -, hstore, -, -⟩
  · exact ⟨v, 1 + extra, finishLoad_eq_loadedInto _ _ _ _ _, hv⟩
  · rw [hload] at hstore
    cases hstore

/-- The frame of a load of an operation, from what loading its register does to the three registers. -/
theorem loadFrameFor {i : Instr} {mn : Mnemonic} {dst keep1 keep2 : State → Byte} (hmn : i.mnemonic = mn)
    (hload : isStore mn = false)
    (hregs : ∀ v len cycles s, dst (loadedInto (mnemonicReg mn) v len cycles s) = v ∧
      keep1 (loadedInto (mnemonicReg mn) v len cycles s) = keep1 s ∧
      keep2 (loadedInto (mnemonicReg mn) v len cycles s) = keep2 s) :
    LoadFrameFor i dst keep1 keep2 := by
  intro s t h
  subst hmn
  obtain ⟨hsp, hC, hI, hD, hB, hV, hhalt, hparams⟩ := exec_keeps_inert h
  obtain ⟨v, cycles, rfl, hv⟩ := exec_load_next hload h
  obtain ⟨hdst, hkeep1, hkeep2⟩ := hregs v i.length cycles s
  rw [hdst]
  refine ⟨fun m e hm he => ?_, fun hn => ?_, loadedInto_flagZ .., loadedInto_flagN .., ?_, loadedInto_pc .., hkeep1,
    hkeep2, hsp, hC, hI, hD, hB, hV, hhalt, hparams, fun addr => by rw [loadedInto_mem]⟩
  · rcases hv with ⟨op, hn, -⟩ | ⟨m', e', hm', he', hread⟩
    · simp [hn] at hm
    · obtain rfl := Option.some.inj (hm.symm.trans hm')
      obtain rfl := Except.ok.inj (he.symm.trans he')
      exact hread
  · rcases hv with ⟨op, -, henc⟩ | ⟨m', -, hm', -, -⟩
    · exact ⟨op, henc⟩
    · simp [hn] at hm'
  · rw [loadedInto_flagZ, loadedInto_flagN, decide_eq_true_iff, decide_eq_true_iff]
    omega

/-- Settles O28: each operation writes its own register of the three. -/
theorem loadFrame : Obligations.LoadFrame := fun _ =>
  ⟨fun hmn => loadFrameFor hmn rfl fun _ _ _ _ => ⟨rfl, rfl, rfl⟩,
    fun hmn => loadFrameFor hmn rfl fun _ _ _ _ => ⟨rfl, rfl, rfl⟩,
    fun hmn => loadFrameFor hmn rfl fun _ _ _ _ => ⟨rfl, rfl, rfl⟩⟩

end Sys2Proof.Machine

namespace Sys2Proof.Machine

/-! PROOFS. The store family (spec 43_store.md): what a store does, the results of the 13 stores by mode, and what each
leaves alone. -/

/-! What a store does. -/

/-- The effect of a store at an address is R140's next state. -/
theorem memWrite_charge_advancePc (addr : Word) (v : Byte) (len cycles : Nat) (s : State) :
    ((s.advancePc len).charge cycles).memWrite addr v = storedAt addr v len cycles s := by
  rw [State.advancePc, word_add_ofNat]
  rfl

/-- A store writes its register at its mode's address and takes its mode's cycles. -/
theorem store_next_of_resolvesTo {m : AddrMode} {s : State} {addr : Word} {cycles : Nat} (r : Reg)
    (h : ResolvesTo m s addr cycles) : store r m s = .next (storedAt addr (s.getReg r) m.length cycles s) := by
  obtain ⟨e, he, rfl, rfl⟩ := h
  rw [store_of_effectiveAddress r he, memWrite_charge_advancePc]

theorem store_refused {m : AddrMode} {s : State} {reason : Refusal} (r : Reg)
    (h : effectiveAddress m s = .error reason) : store r m s = .refused reason := by
  rw [store, h]

/-! The results of the 13 stores, by mode. -/

/-- Settles O18: an operand byte is its own zero-page address. -/
theorem storeZeroPageResults : Obligations.StoreZeroPageResults := fun _ _ =>
  ⟨completesAs_of_exec rfl (store_next_of_resolvesTo .a zeroPage_resolvesTo),
    completesAs_of_exec rfl (store_next_of_resolvesTo .x zeroPage_resolvesTo),
    completesAs_of_exec rfl (store_next_of_resolvesTo .y zeroPage_resolvesTo)⟩

/-- Settles O19: the byte sum and the sum modulo 256 are one address. -/
theorem storeZeroPageIndexedResults : Obligations.StoreZeroPageIndexedResults := fun _ _ =>
  ⟨completesAs_of_exec rfl (store_next_of_resolvesTo .a zeroPageX_resolvesTo),
    completesAs_of_exec rfl (store_next_of_resolvesTo .x zeroPageY_resolvesTo),
    completesAs_of_exec rfl (store_next_of_resolvesTo .y zeroPageX_resolvesTo)⟩

/-- Settles O20: the operand's two bytes, low byte first, are the encoding's. -/
theorem storeAbsoluteResults : Obligations.StoreAbsoluteResults := by
  intro s l h addr haddr
  obtain ⟨rfl, rfl⟩ := operand_bytes haddr
  exact ⟨completesAs_of_exec rfl (store_next_of_resolvesTo .a absolute_resolvesTo),
    completesAs_of_exec rfl (store_next_of_resolvesTo .x absolute_resolvesTo),
    completesAs_of_exec rfl (store_next_of_resolvesTo .y absolute_resolvesTo)⟩

/-- Settles O21: the resolver answers exactly where the carry is settled, and a store takes the crossing's cycle only
where it crosses, as a load does. -/
theorem storeAbsoluteIndexedResults : Obligations.StoreAbsoluteIndexedResults := by
  intro s l h base hbase
  obtain ⟨rfl, rfl⟩ := operand_bytes hbase
  refine ⟨fun hx => ?_, fun hy => ?_, fun hx => ?_, fun hy => ?_⟩
  · exact completesAs_of_exec rfl (store_next_of_resolvesTo .a (absoluteX_resolvesTo hx))
  · exact completesAs_of_exec rfl (store_next_of_resolvesTo .a (absoluteY_resolvesTo hy))
  · exact store_refused .a (indexedFrom_carryRefused 3 hx)
  · exact store_refused .a (indexedFrom_carryRefused 3 hy)

/-- Settles O22: ZpNext alone decides whether the pointer has an address. -/
theorem storeIndexedIndirectResults : Obligations.StoreIndexedIndirectResults := by
  intro s zz ptr hptr
  refine ⟨fun high hhigh => ?_, fun hff hset => ?_⟩
  · exact completesAs_of_exec rfl (store_next_of_resolvesTo .a (indexedIndirectX_resolvesTo hptr hhigh))
  · exact store_refused .a (indexedIndirect_at_ff (hptr.symm.trans hff) hset)

/-- Settles O23: ZpNext decides the pointer, then Carry16 the sum. -/
theorem storeIndirectIndexedResults : Obligations.StoreIndirectIndexedResults := by
  intro s zz
  refine ⟨?_, fun hff hset => store_refused .a (indirectIndexed_at_ff hff hset)⟩
  rintro high _ hhigh rfl
  refine ⟨fun hsum => ?_, fun hsum => ?_⟩
  · exact completesAs_of_exec rfl (store_next_of_resolvesTo .a (indirectIndexedY_resolvesTo hhigh hsum))
  · exact store_refused .a (indirectIndexed_carryRefused hhigh hsum)

/-! The frame of a store. -/

theorem AddrMode.mode_ne_immediate (m : AddrMode) : m.mode ≠ .immediate := by
  cases m <;> exact Mode.noConfusion

/-- A read after a store: the stored byte at its address, every other byte as before. -/
theorem storedAt_read (addr b : Word) (v : Byte) (len cycles : Nat) (s : State) :
    (storedAt addr v len cycles s).mem.read b = if b = addr then v else s.mem.read b :=
  Memory.read_write s.mem addr b v

/-- A store that answers a next state has written its register at its mode's effective address. -/
theorem exec_store_next {i : Instr} {m : AddrMode} {s t : State} (hm : instrAddrMode i = some m)
    (hstore : isStore i.mnemonic = true) (h : exec i s = .next t) :
    ∃ e, effectiveAddress m s = .ok e ∧
      t = storedAt e.addr (s.getReg (mnemonicReg i.mnemonic)) i.length (1 + e.extra) s := by
  rcases exec_next h with ⟨_, _, hload, -⟩ | ⟨m', e, hm', -, he, rfl⟩
  · rw [hstore] at hload
    cases hload
  · obtain rfl := Option.some.inj (hm.symm.trans hm')
    exact ⟨e, he, memWrite_charge_advancePc ..⟩

/-- The frame of a store, from its mode alone: the next state differs from the state before in memory, PC and CYC. -/
theorem storeFrameFor {i : Instr} {m : AddrMode} (hm : instrAddrMode i = some m) (hstore : isStore i.mnemonic = true) :
    StoreFrameFor i m (·.getReg (mnemonicReg i.mnemonic)) := by
  have hmode : m.mode = i.mode := mode_of_instrAddrMode hm
  refine ⟨hmode ▸ m.mode_ne_immediate, fun s t h => ?_⟩
  obtain ⟨e, he, rfl⟩ := exec_store_next hm hstore h
  refine ⟨⟨e, he, ?_, fun addr hne => ?_, ?_⟩, ?_, rfl, rfl, rfl, rfl, rfl, rfl, rfl, rfl, rfl, rfl, rfl, rfl, rfl, rfl⟩
  · rw [storedAt_read, if_pos rfl]
  · rw [storedAt_read, if_neg hne]
  · rw [instrAccesses_memory hm he, dataAccess_store hstore]
  · rw [exec_cyc h, hm]

/-- Settles O29: each operation writes the register that its name says. -/
theorem storeFrame : Obligations.StoreFrame := fun _ _ =>
  ⟨storeFrameFor rfl rfl, storeFrameFor rfl rfl, storeFrameFor rfl rfl, storeFrameFor rfl rfl, storeFrameFor rfl rfl,
    storeFrameFor rfl rfl, storeFrameFor rfl rfl, storeFrameFor rfl rfl, storeFrameFor rfl rfl, storeFrameFor rfl rfl,
    storeFrameFor rfl rfl, storeFrameFor rfl rfl, storeFrameFor rfl rfl⟩

end Sys2Proof.Machine

namespace Sys2Proof.Machine

/-! PROOFS. The reset family (spec 70_reset_and_hazards.md): what `reset()` writes and what it keeps. -/

/-- Settles O41: the operation is `State.resetOp`, which takes CYC, MEM and the parameters from the state before and each
other field from `State.reset`. -/
theorem resetOperation : Obligations.ResetOperation := by
  intro s
  calc hostStep .reset s
    _ = .next (s.resetOp, .done) := rfl
    _ = .next ({ State.reset with cyc := s.cyc, mem := s.mem, params := s.params }, .done) := by rw [State.resetOp]
    _ = _ := rfl

end Sys2Proof.Machine

namespace Sys2Proof.Machine

/-! PROOFS. The placed table word (spec 41_execution_engine.md section 4): bytes stored at consecutive addresses are the
bytes the fetch finds there. -/

/-- A byte `bs.length` or more addresses past the start, modulo 65536, is not written. -/
theorem Memory.read_writeBytes_of_length_le (m : Memory) {addr b : Word} {bs : List Byte}
    (h : bs.length ≤ (b - addr).toNat) : (m.writeBytes addr bs).read b = m.read b := by
  induction bs generalizing m addr with
  | nil => rfl
  | cons v bs ih =>
    rw [List.length_cons] at h
    have hne : b ≠ addr := by rintro rfl; simp at h
    have hnext : bs.length ≤ (b - (addr + 1)).toNat := by bv_omega
    rw [Memory.writeBytes, ih _ hnext, Memory.read_write, if_neg hne]

/-- Consecutive bytes read back as they were written, as long as they do not wrap past their own start. -/
theorem Memory.bytesFrom_writeBytes (m : Memory) (addr : Word) {bs : List Byte} (h : bs.length ≤ 65536) :
    (m.writeBytes addr bs).bytesFrom addr bs.length = bs := by
  induction bs generalizing m addr with
  | nil => rfl
  | cons v bs ih =>
    rw [List.length_cons] at h
    have hlast : bs.length ≤ (addr - (addr + 1)).toNat := by bv_omega
    rw [Memory.writeBytes, List.length_cons, Memory.bytesFrom, Memory.read_writeBytes_of_length_le _ hlast,
      Memory.read_write, if_pos rfl, ih _ _ (by omega)]

@[simp] theorem State.withFetchWord_halt (s : State) (nbits w : Nat) : (s.withFetchWord nbits w).halt = .running := rfl

/-- The bytes at PC after the placing are the table word's. -/
theorem bytesFrom_withFetchWord (s : State) (nbits w : Nat) :
    (s.withFetchWord nbits w).mem.bytesFrom (s.withFetchWord nbits w).pc 3 = tableWordBytes nbits w :=
  Memory.bytesFrom_writeBytes s.mem s.pc (bs := tableWordBytes nbits w) (by simp [tableWordBytes])

/-- The instruction of a table word is the one its bytes decode to. -/
theorem decode_of_decodeTableWord {nbits w : Nat} {i : Instr} (h : decodeTableWord nbits w = some i) :
    ∃ rest, decode (tableWordBytes nbits w) = .ok (i, rest) := by
  unfold decodeTableWord at h
  split at h
  case h_1 j rest hdec =>
    cases h
    exact ⟨rest, hdec⟩
  case h_2 => cases h

/-- Settles O7: the placed machine runs, and the bytes at its PC are the table word's, so O6 applies. -/
theorem placedTableWordRunsNext : Obligations.PlacedTableWordRunsNext := by
  intro s nbits w i h
  obtain ⟨rest, hdec⟩ := decode_of_decodeTableWord h
  rw [← bytesFrom_withFetchWord s nbits w] at hdec
  exact stepRunsDecodedInstruction _ i rest (s.withFetchWord_halt nbits w) hdec

end Sys2Proof.Machine
